-- ==== Sys2Proof/Word.lean ====
section
/-! DEFINITION. The machine's words (spec 00_scope.md R6 to R8, 10_state.md R29, R33): everything is unsigned. -/

namespace Sys2Proof

/-- The machine word: a register, a memory cell, an operand byte, a memory address (R6 `XLEN`, `ALEN`). -/
abbrev Byte := BitVec 8

/-- The program counter's 9 bits (10_state.md R29, decision D18): wide enough that 253 + 3 does not wrap. -/
abbrev PcWord := BitVec 9

/-- The 3-bit flags register (10_state.md R33): bit 2 is L, bit 1 is G, bit 0 is E. -/
abbrev FlagWord := BitVec 3

/-- A register index that passed the check of 10_state.md R25. -/
abbrev RegIx := Fin 8

end Sys2Proof
end

