-- ==== Sys2Proof/Syntax.lean ====
section
/-! DEFINITION. The instructions: one constructor per row of spec/opcode_table.json (spec 30_encoding.md R90, R91). -/

namespace Sys2Proof

/-- An instruction with its operand bytes, in the order of the opcode byte. A register operand is kept as the WHOLE byte
(30_encoding.md R85: no bits are ignored); whether it names a register is checked when the handler runs
(10_state.md R25). The operand bytes of a declared, undispatched opcode (x, y) are fetched and never interpreted
(45_declared_undispatched.md R200). -/
inductive Instr where
  /-- NOP 0x00, R217: declared, not dispatched. -/
  | nop
  /-- HLT 0x01, R116: halt. -/
  | hlt
  /-- RET 0x11, R175: return from subroutine. -/
  | ret
  /-- IRET 0x13, R216: declared, not dispatched. -/
  | iret
  /-- PUSH 0x45, R172: push register a. -/
  | push (a : Byte)
  /-- POP 0x46, R173: pop into register a. -/
  | pop (a : Byte)
  /-- PRN 0x47, R191: emit register a. -/
  | prn (a : Byte)
  /-- CALL 0x50, R174: call the address in register a. -/
  | call (a : Byte)
  /-- INT 0x52, R215: declared, not dispatched. -/
  | int (x : Byte)
  /-- JMP 0x54, R152: jump to the address in register a. -/
  | jmp (a : Byte)
  /-- JEQ 0x55, R153: jump if E is set. -/
  | jeq (a : Byte)
  /-- JNE 0x56, R154: jump if E is clear. -/
  | jne (a : Byte)
  /-- JGT 0x57, R211: declared, not dispatched. -/
  | jgt (x : Byte)
  /-- JLT 0x58, R213: declared, not dispatched. -/
  | jlt (x : Byte)
  /-- JLE 0x59, R214: declared, not dispatched. -/
  | jle (x : Byte)
  /-- JGE 0x5A, R212: declared, not dispatched. -/
  | jge (x : Byte)
  /-- INC 0x65, R134: register a plus 1. -/
  | inc (a : Byte)
  /-- DEC 0x66, R135: register a minus 1. -/
  | dec (a : Byte)
  /-- NOT 0x69, R206: declared, not dispatched. -/
  | not (x : Byte)
  /-- LDI 0x82, R190: register a becomes the immediate byte. -/
  | ldi (a imm : Byte)
  /-- LD 0x83, R209: declared, not dispatched. -/
  | ld (x y : Byte)
  /-- ST 0x84, R210: declared, not dispatched. -/
  | st (x y : Byte)
  /-- ADD 0xA0, R131: register a plus register b. -/
  | add (a b : Byte)
  /-- SUB 0xA1, R132: register a minus register b. -/
  | sub (a b : Byte)
  /-- MUL 0xA2, R133: register a times register b. -/
  | mul (a b : Byte)
  /-- DIV 0xA3, R201: declared, not dispatched. -/
  | div (x y : Byte)
  /-- MOD 0xA4, R202: declared, not dispatched. -/
  | mod (x y : Byte)
  /-- CMP 0xA7, R151: compare register a with register b. -/
  | cmp (a b : Byte)
  /-- AND 0xA8, R203: declared, not dispatched. -/
  | and (x y : Byte)
  /-- OR 0xAA, R204: declared, not dispatched. -/
  | or (x y : Byte)
  /-- XOR 0xAB, R205: declared, not dispatched. -/
  | xor (x y : Byte)
  /-- SHL 0xAC, R207: declared, not dispatched. -/
  | shl (x y : Byte)
  /-- SHR 0xAD, R208: declared, not dispatched. -/
  | shr (x y : Byte)
  deriving DecidableEq, Repr

end Sys2Proof
end

