-- ==== Sys2Proof/Decode.lean ====
section
/-! DEFINITION. Encodings (spec 30_encoding.md): the fields of the opcode byte, the decoder and the encoder, both from the
tables R90 and R91. -/

namespace Sys2Proof

/-- `ir[7:6]`, the operand count (R81). -/
def operandCount (ir : Byte) : Nat := (ir.extractLsb' 6 2).toNat

/-- `ir[4]`, "sets program counter directly" (R81, R82, decision D2). -/
def setsPc (ir : Byte) : Bool := ir.getLsbD 4

/-- The three formats of R80: how many operand bytes the instruction takes, and the instruction they make. -/
inductive OpcodeForm where
  | f0 (i : Instr)
  | f1 (make : Byte → Instr)
  | f2 (make : Byte → Byte → Instr)

/-- The rows of R90 and R91, by the whole opcode byte (R86); the other 223 bytes have none (R92). -/
def opcodeForm (ir : Byte) : Option OpcodeForm :=
  match ir with
  | 0x00#8 => some (.f0 .nop)
  | 0x01#8 => some (.f0 .hlt)
  | 0x11#8 => some (.f0 .ret)
  | 0x13#8 => some (.f0 .iret)
  | 0x45#8 => some (.f1 .push)
  | 0x46#8 => some (.f1 .pop)
  | 0x47#8 => some (.f1 .prn)
  | 0x50#8 => some (.f1 .call)
  | 0x52#8 => some (.f1 .int)
  | 0x54#8 => some (.f1 .jmp)
  | 0x55#8 => some (.f1 .jeq)
  | 0x56#8 => some (.f1 .jne)
  | 0x57#8 => some (.f1 .jgt)
  | 0x58#8 => some (.f1 .jlt)
  | 0x59#8 => some (.f1 .jle)
  | 0x5A#8 => some (.f1 .jge)
  | 0x65#8 => some (.f1 .inc)
  | 0x66#8 => some (.f1 .dec)
  | 0x69#8 => some (.f1 .not)
  | 0x82#8 => some (.f2 .ldi)
  | 0x83#8 => some (.f2 .ld)
  | 0x84#8 => some (.f2 .st)
  | 0xA0#8 => some (.f2 .add)
  | 0xA1#8 => some (.f2 .sub)
  | 0xA2#8 => some (.f2 .mul)
  | 0xA3#8 => some (.f2 .div)
  | 0xA4#8 => some (.f2 .mod)
  | 0xA7#8 => some (.f2 .cmp)
  | 0xA8#8 => some (.f2 .and)
  | 0xAA#8 => some (.f2 .or)
  | 0xAB#8 => some (.f2 .xor)
  | 0xAC#8 => some (.f2 .shl)
  | 0xAD#8 => some (.f2 .shr)
  | _ => none

/-- Why bytes are no instruction. -/
inductive DecodeError where
  /-- The opcode byte is in neither table (R92). -/
  | illegalOpcode (ir : Byte)
  /-- The bytes end before the instruction does. The machine never meets it: it fetches three bytes (40 R110). -/
  | truncated
  deriving DecidableEq, Repr

/-- The instruction at the head of a list of bytes, lowest address first (R80, R84). Bytes beyond its length are ignored. -/
def decode (bs : List Byte) : Except DecodeError Instr :=
  match bs with
  | [] => .error .truncated
  | ir :: rest =>
    match opcodeForm ir, rest with
    | none, _ => .error (.illegalOpcode ir)
    | some (.f0 i), _ => .ok i
    | some (.f1 make), a :: _ => .ok (make a)
    | some (.f2 make), a :: b :: _ => .ok (make a b)
    | some _, _ => .error .truncated

/-- The opcode byte of R90 and R91. -/
def opcode (i : Instr) : Byte :=
  match i with
  | .nop => 0x00#8
  | .hlt => 0x01#8
  | .ret => 0x11#8
  | .iret => 0x13#8
  | .push _ => 0x45#8
  | .pop _ => 0x46#8
  | .prn _ => 0x47#8
  | .call _ => 0x50#8
  | .int _ => 0x52#8
  | .jmp _ => 0x54#8
  | .jeq _ => 0x55#8
  | .jne _ => 0x56#8
  | .jgt _ => 0x57#8
  | .jlt _ => 0x58#8
  | .jle _ => 0x59#8
  | .jge _ => 0x5A#8
  | .inc _ => 0x65#8
  | .dec _ => 0x66#8
  | .not _ => 0x69#8
  | .ldi _ _ => 0x82#8
  | .ld _ _ => 0x83#8
  | .st _ _ => 0x84#8
  | .add _ _ => 0xA0#8
  | .sub _ _ => 0xA1#8
  | .mul _ _ => 0xA2#8
  | .div _ _ => 0xA3#8
  | .mod _ _ => 0xA4#8
  | .cmp _ _ => 0xA7#8
  | .and _ _ => 0xA8#8
  | .or _ _ => 0xAA#8
  | .xor _ _ => 0xAB#8
  | .shl _ _ => 0xAC#8
  | .shr _ _ => 0xAD#8

/-- The operand bytes, in address order (R80, R85). -/
def operands (i : Instr) : List Byte :=
  match i with
  | .nop => []
  | .hlt => []
  | .ret => []
  | .iret => []
  | .push a => [a]
  | .pop a => [a]
  | .prn a => [a]
  | .call a => [a]
  | .int a => [a]
  | .jmp a => [a]
  | .jeq a => [a]
  | .jne a => [a]
  | .jgt a => [a]
  | .jlt a => [a]
  | .jle a => [a]
  | .jge a => [a]
  | .inc a => [a]
  | .dec a => [a]
  | .not a => [a]
  | .ldi a b => [a, b]
  | .ld a b => [a, b]
  | .st a b => [a, b]
  | .add a b => [a, b]
  | .sub a b => [a, b]
  | .mul a b => [a, b]
  | .div a b => [a, b]
  | .mod a b => [a, b]
  | .cmp a b => [a, b]
  | .and a b => [a, b]
  | .or a b => [a, b]
  | .xor a b => [a, b]
  | .shl a b => [a, b]
  | .shr a b => [a, b]

/-- The bytes of an instruction, lowest address first (R80). -/
def encode (i : Instr) : List Byte := opcode i :: operands i

/-- The name of an instruction, dispatched or only declared, as a diagnostic prints it (R90, R91, R102). -/
def mnemonic (i : Instr) : String :=
  match i with
  | .nop => "NOP"
  | .hlt => "HLT"
  | .ret => "RET"
  | .iret => "IRET"
  | .push _ => "PUSH"
  | .pop _ => "POP"
  | .prn _ => "PRN"
  | .call _ => "CALL"
  | .int _ => "INT"
  | .jmp _ => "JMP"
  | .jeq _ => "JEQ"
  | .jne _ => "JNE"
  | .jgt _ => "JGT"
  | .jlt _ => "JLT"
  | .jle _ => "JLE"
  | .jge _ => "JGE"
  | .inc _ => "INC"
  | .dec _ => "DEC"
  | .not _ => "NOT"
  | .ldi _ _ => "LDI"
  | .ld _ _ => "LD"
  | .st _ _ => "ST"
  | .add _ _ => "ADD"
  | .sub _ _ => "SUB"
  | .mul _ _ => "MUL"
  | .div _ _ => "DIV"
  | .mod _ _ => "MOD"
  | .cmp _ _ => "CMP"
  | .and _ _ => "AND"
  | .or _ _ => "OR"
  | .xor _ _ => "XOR"
  | .shl _ _ => "SHL"
  | .shr _ _ => "SHR"

/-- The sixteen bytes that have a handler: `DISPATCH_SET` (R90, R92; 00_scope.md R6). -/
def dispatchSet : List Byte :=
  [0x01#8, 0x11#8, 0x45#8, 0x46#8, 0x47#8, 0x50#8, 0x54#8, 0x55#8, 0x56#8, 0x65#8, 0x66#8, 0x82#8, 0xA0#8, 0xA1#8, 0xA2#8, 0xA7#8]

/-- The bytes of an instruction numbered as spec/opcode_table.json numbers them: the low `nbits` bits of `w`, the first
byte in bits 7..0, up to the longest instruction's three bytes; the bits above are 0. -/
def tableBytes (nbits w : Nat) : List Byte :=
  let v := w % 2 ^ nbits
  [BitVec.ofNat 8 v, BitVec.ofNat 8 (v / 256), BitVec.ofNat 8 (v / 65536)]

/-- What the decoder reads from an instruction given as a number of the opcode table. -/
def decodeTableWord (nbits w : Nat) : Option Instr :=
  match decode (tableBytes nbits w) with
  | .ok i => some i
  | .error _ => none

end Sys2Proof
end

