-- ==== Sys2Proof/Config.lean ====
section
/-! DEFINITION. The implementation parameters of spec 00_scope.md R6. All are fixed values: the spec leaves no value
open at run time, so there is no opaque constant here. -/

namespace Sys2Proof.Config

/-- `MEMSIZE`: the number of memory cells (R6). -/
def memSize : Nat := 256

/-- `MEM_FILL`: what a cell holds that neither the image nor a store has written (R6, 70 R272, decision D5). -/
def memFill : Byte := 0x00#8

/-- `SP_INDEX`: the register that is the stack pointer (R6, 10_state.md R23). -/
def spIndex : RegIx := 7

/-- `SP_RESET` (R6, 10_state.md R27). -/
def spReset : Byte := 0xF4#8

/-- `GPR_RESET`: registers 0 to 6 at reset (R6, 10_state.md R27, decision D6). -/
def gprReset : Byte := 0x00#8

/-- `PC_RESET` (R6, 10_state.md R32, decision D7). -/
def pcReset : PcWord := 0#9

/-- `FL_RESET`: no flag set (R6, 10_state.md R35, decision D8). -/
def flReset : FlagWord := 0b000#3

end Sys2Proof.Config
end

