-- ==== Sys2Proof/Machine/State.lean ====
section
/-! DEFINITION. The whole state of the machine (spec 10_state.md R20), its reset value (70_reset_and_hazards.md R271), and
the ways a step can stop. -/

namespace Sys2Proof.Machine

/-- Memory as (address, byte) pairs in canonical form: addresses rising, all below 256, no entry equal to the fill value
that an unlisted address reads as (10_state.md R38, 20_memory.md R50). `Memory.wf` states the form. -/
abbrev Memory := List Host.Cell

/-- The causes of 60_exceptions.md R231. -/
inductive FaultCause where
  /-- Code 1: the opcode byte has no handler (R232). -/
  | illegalInstruction
  /-- Code 2: a fetch address is above 255 (R233). -/
  | addressOutOfRange
  /-- Code 3: an operand byte used as a register index is above 7 (R234). -/
  | registerIndexOutOfRange
  /-- Code 4: SP - 1 or SP + 1 would leave 0..255 (R237). -/
  | stackPointerRange
  /-- Code 5: reserved, raised by nothing (R235). -/
  | aluContractViolation
  deriving DecidableEq, Repr

/-- The fault record (10_state.md R36). -/
structure FaultRecord where
  cause  : FaultCause
  /-- The byte at pc, or none when the opcode fetch itself faulted. -/
  opcode : Option Byte
  /-- The pc when the faulting cycle began. -/
  pc     : PcWord
  /-- The out-of-range address or register index, the stack pointer, or the illegal opcode byte (60 R231). -/
  detail : Option Nat
  deriving DecidableEq, Repr

/-- The run status (10_state.md R36). The record exists only when a fault has been taken; otherwise it is empty. -/
inductive RunStatus where
  | running
  | halted
  | faulted (r : FaultRecord)
  deriving DecidableEq, Repr

/-- The architectural state: all of it (10_state.md R20, R39). -/
structure State where
  /-- `x[0..7]`; entry 7 is the stack pointer (R21, R23). -/
  x      : Vector Byte 8
  /-- The program counter (R28, R29). -/
  pc     : PcWord
  /-- The flags register (R33). -/
  fl     : FlagWord
  /-- `M[0..255]` (R38). -/
  mem    : Memory
  /-- RUNNING, HALTED or FAULTED with its record (R36). -/
  status : RunStatus
  /-- The output history, oldest first (R37). -/
  out    : List Byte
  deriving DecidableEq, Repr

/-- The reset state with no image placed (70_reset_and_hazards.md R271, R272, R276 with n = 0). -/
def State.reset : State where
  x      := (Vector.replicate 8 Config.gprReset).set Config.spIndex Config.spReset
  pc     := Config.pcReset
  fl     := Config.flReset
  mem    := []
  status := .running
  out    := []

/-- Why no next state exists. The spec's own faults are no such stop: taking one is a next state (60 R236). -/
inductive Fault where
  /-- Raised by `step` when the status is HALTED: that state has no step (40 R117, 00_scope.md R14). Safe: the spec allows
  no transition here. -/
  | noStepHalted
  /-- Raised by `step` when the status is FAULTED: that state has no step (40 R117, 60 R243). Safe, as above. -/
  | noStepFaulted
  deriving DecidableEq, Repr

/-- Why an instruction has no meaning in the model. -/
inductive Refusal where
  /-- Only an arm of `exec` without a meaning answers it; there is none left. Safe: nothing can be proved of it. -/
  | notModelled (mnemonic : String)
  deriving DecidableEq, Repr

/-- The three outcomes, for this machine. -/
abbrev Result := Host.Outcome State Fault Refusal

end Sys2Proof.Machine
end

