-- ==== Sys2Proof/Machine/Ops.lean ====
section
/-! DEFINITION. The primitives of the spec's pseudocode (00_scope.md R9): memory, registers, stack pointer, output, taking
a fault, the fetch, the advance that ends a cycle, and the load that precedes the first one. -/

namespace Sys2Proof.Machine

/-- The byte at an address; an unlisted one reads as the fill value (70 R272). -/
def Memory.read (m : Memory) (a : Nat) : Byte :=
  match m with
  | [] => Config.memFill
  | (k, v) :: rest => if k = a then v else Memory.read rest a

/-- Put a byte at an address, keeping the canonical form: the fill value is not listed. -/
def Memory.write (m : Memory) (a : Nat) (v : Byte) : Memory :=
  match m with
  | [] => if v = Config.memFill then [] else [(a, v)]
  | (k, w) :: rest =>
    if a < k then
      if v = Config.memFill then (k, w) :: rest else (a, v) :: (k, w) :: rest
    else if a = k then
      if v = Config.memFill then rest else (a, v) :: rest
    else (k, w) :: Memory.write rest a v

/-- The canonical form: addresses below 256 and strictly rising, no entry equal to the fill value. -/
def Memory.wf (m : Memory) : Bool :=
  match m with
  | [] => true
  | (k, v) :: rest =>
    decide (k < Config.memSize) && decide (v ≠ Config.memFill) && rest.all (fun c => decide (k < c.1)) && Memory.wf rest

/-- `MemRead(addr, 1)` (R9): a data address is a byte, so it is always in range (20_memory.md R56). -/
def State.memRead (s : State) (a : Byte) : Byte := s.mem.read a.toNat

/-- `MemWrite(addr, 1, v)` (R9). -/
def State.memWrite (s : State) (a v : Byte) : State := { s with mem := s.mem.write a.toNat v }

/-- `x[i]` (R9). Reading has no side effect (10_state.md R26). -/
def State.reg (s : State) (i : RegIx) : Byte := s.x[i]

/-- `x[i] <- v` (R9). No register is hard-wired (10_state.md R22). -/
def State.setReg (s : State) (i : RegIx) (v : Byte) : State := { s with x := s.x.set i v }

/-- `SP`, another spelling of `x[7]` (10_state.md R23). -/
def State.sp (s : State) : Byte := s.reg Config.spIndex

/-- `pc <- t` (R9). -/
def State.setPc (s : State) (t : PcWord) : State := { s with pc := t }

/-- `fl <- v` (R9): the whole register is overwritten (42 R151). -/
def State.setFl (s : State) (v : FlagWord) : State := { s with fl := v }

/-- `status <- v` (R9). -/
def State.setStatus (s : State) (v : RunStatus) : State := { s with status := v }

/-- `Emit(v)`: append to the output history (10_state.md R37). -/
def State.emit (s : State) (v : Byte) : State := { s with out := s.out ++ [v] }

/-- `M[pc]`, the opcode byte a fault records, or none when pc is above 255 (10_state.md R36, 60 R233). -/
def State.opcodeAtPc (s : State) : Option Byte :=
  if s.pc.toNat < Config.memSize then some (s.mem.read s.pc.toNat) else none

/-- TAKING A FAULT (60_exceptions.md R236). The argument is the state at the START of the cycle, so everything the cycle
has done is discarded; only the status changes, to FAULTED with the record. -/
def State.takeFault (s : State) (cause : FaultCause) (op : Option Byte) (detail : Option Nat) : State :=
  s.setStatus (.faulted { cause := cause, opcode := op, pc := s.pc, detail := detail })

/-- `raise <Fault>(info)` (R9, 60 R233, R234, R237): the record's opcode is `M[pc]`. -/
def raise (cause : FaultCause) (info : Nat) (s : State) : Result :=
  .next (s.takeFault cause s.opcodeAtPc (some info))

/-- `raise IllegalInstruction(ir)` (60 R232): the record names the byte that has no handler. -/
def raiseIllegal (ir : Byte) (s : State) : Result :=
  .next (s.takeFault .illegalInstruction (some ir) (some ir.toNat))

/-- The cause codes of 60 R231 (decision D15). -/
def FaultCause.code (c : FaultCause) : Nat :=
  match c with
  | .illegalInstruction => 1
  | .addressOutOfRange => 2
  | .registerIndexOutOfRange => 3
  | .stackPointerRange => 4
  | .aluContractViolation => 5

/-- The implicit decrement of PUSH and CALL; none where it would leave 0..255 (43 R171). -/
def State.decSp (s : State) : Option State :=
  if s.sp = 0x00#8 then none else some (s.setReg Config.spIndex (s.sp - 1))

/-- The implicit increment of POP and RET; none where it would leave 0..255 (43 R171). -/
def State.incSp (s : State) : Option State :=
  if s.sp = 0xFF#8 then none else some (s.setReg Config.spIndex (s.sp + 1))

/-- Assigning a byte to pc widens it with zero bits (R8, 10_state.md R29). -/
def pcOfByte (v : Byte) : PcWord := v.setWidth 9

/-- `FetchRead(addr)` (40 R111): above 255 it gives the address back, as the one to report. -/
def State.fetchRead (s : State) (a : Nat) : Except Nat Byte :=
  if a < Config.memSize then .ok (s.mem.read a) else .error a

/-- The three bytes every cycle fetches (40 R110 steps 1 and 2). -/
structure Fetched where
  ir : Byte
  a  : Byte
  b  : Byte
  deriving DecidableEq, Repr

/-- The fetched bytes as the decoder takes them. -/
def Fetched.bytes (f : Fetched) : List Byte := [f.ir, f.a, f.b]

/-- Steps 1 and 2 of the cycle: read `M[pc]`, `M[pc+1]`, `M[pc+2]` in this order, always all three; the addresses are
integers and never wrap (40 R110, R111, R112). An error is the first address out of range. -/
def State.fetch (s : State) : Except Nat Fetched := do
  let ir ← s.fetchRead s.pc.toNat
  let a ← s.fetchRead (s.pc.toNat + 1)
  let b ← s.fetchRead (s.pc.toNat + 2)
  return { ir := ir, a := a, b := b }

/-- Step 5 of the cycle, after the handler of opcode byte `ir` left state `s`: if still RUNNING and `ir[4]` is 0, advance
pc by `ir[7:6]` + 1 (40 R110, R115). -/
def finishCycle (ir : Byte) (s : State) : State :=
  if s.status = .running ∧ setsPc ir = false then
    s.setPc (s.pc + BitVec.ofNat 9 (operandCount ir + 1))
  else s

/-- The end of a handler that completed: step 5, then the next state. -/
def complete (i : Instr) (s : State) : Result := .next (finishCycle (opcode i) s)

/-- Put bytes at consecutive addresses from `a`; an address above 255 does not exist and takes nothing. -/
def placeBytes (m : Memory) (a : Nat) (bs : List Byte) : Memory :=
  match bs with
  | [] => m
  | b :: rest => placeBytes (if a < Config.memSize then m.write a b else m) (a + 1) rest

/-- The state in which the host releases reset after loading an image (70 R270, R271, R276): byte k at `M[k]`. An image of
more than 256 bytes has no reset state (R276, decision D20). -/
def bootState (image : List Byte) : Option State :=
  if image.length ≤ Config.memSize then
    some { State.reset with mem := placeBytes State.reset.mem 0 image }
  else none

end Sys2Proof.Machine
end

