-- ==== Sys2Proof/WellFormed.lean ====
section
/-! DEFINITION. Which instructions are well formed: every operand byte used as a register index is 0..7
(spec 10_state.md R25, 30_encoding.md R85). An instruction that is not is still executed: it raises
RegisterIndexOutOfRange (spec 60_exceptions.md R234). -/

namespace Sys2Proof

/-- The whole byte is compared, not its low three bits (10_state.md R25). -/
def isRegIndex (v : Byte) : Bool := v.toNat < 8

/-- The operand bytes an instruction uses as register indices, in the order they are checked (10_state.md R25, R22:
none for HLT and RET, `a` for one-register instructions and LDI, `a` then `b` for ADD, SUB, MUL, CMP). The operand
bytes of an undispatched opcode are used for nothing (45_declared_undispatched.md R200). -/
def regOperands (i : Instr) : List Byte :=
  match i with
  | .nop => []
  | .hlt => []
  | .ret => []
  | .iret => []
  | .push a => [a]
  | .pop a => [a]
  | .prn a => [a]
  | .call a => [a]
  | .int _ => []
  | .jmp a => [a]
  | .jeq a => [a]
  | .jne a => [a]
  | .jgt _ => []
  | .jlt _ => []
  | .jle _ => []
  | .jge _ => []
  | .inc a => [a]
  | .dec a => [a]
  | .not _ => []
  | .ldi a _ => [a]
  | .ld _ _ => []
  | .st _ _ => []
  | .add a b => [a, b]
  | .sub a b => [a, b]
  | .mul a b => [a, b]
  | .div _ _ => []
  | .mod _ _ => []
  | .cmp a b => [a, b]
  | .and _ _ => []
  | .or _ _ => []
  | .xor _ _ => []
  | .shl _ _ => []
  | .shr _ _ => []

/-- Every register operand names a register. -/
def wellFormed (i : Instr) : Bool := (regOperands i).all isRegIndex

/-- The operand byte the register-index check stops at: the first one above 7 (60_exceptions.md R234, R240). -/
def firstBadIndex (i : Instr) : Option Byte := (regOperands i).find? fun v => !isRegIndex v

end Sys2Proof
end

