-- ==== Sys2Proof/Machine/Operands.lean ====
section
/-! DEFINITION. The operand forms (spec 30_encoding.md R85): a register index byte, checked; the immediate byte needs
nothing. `s` is always the state at the start of the cycle, so a failed check leaves it as it was (10_state.md R25,
60_exceptions.md R236). -/

namespace Sys2Proof.Machine

/-- `Reg(v)` (10_state.md R25): go on with the register the byte names, or raise RegisterIndexOutOfRange(v). -/
def withReg (v : Byte) (s : State) (k : RegIx → Result) : Result :=
  if h : v.toNat < 8 then k ⟨v.toNat, h⟩ else raise .registerIndexOutOfRange v.toNat s

/-- `i <- Reg(a); j <- Reg(b)`: a is checked before b (60 R234, decision D16). -/
def withRegs (a b : Byte) (s : State) (k : RegIx → RegIx → Result) : Result :=
  withReg a s fun i => withReg b s fun j => k i j

/-- The byte that names a register. -/
def regByte (i : RegIx) : Byte := BitVec.ofNat 8 i.val

end Sys2Proof.Machine
end

