-- ==== Sys2Proof/Machine/Alu.lean ====
section
/-! DEFINITION. ADD, SUB, MUL, INC, DEC (spec 41_alu.md). Results are computed as integers and reduced modulo 256 (R130,
R137); no flag is written; both operands are read before the result is written (R138). -/

namespace Sys2Proof.Machine

/-- The exact integer reduced modulo 256 (R137). -/
def aluResult (exact : Int) : Byte := BitVec.ofInt 8 exact

/-- The operand as the unsigned integer it is (00_scope.md R8). -/
def operandValue (v : Byte) : Int := (v.toNat : Int)

/-- ADD Ra, Rb (R131). -/
def execAdd (a b : Byte) (s : State) : Result :=
  withRegs a b s fun i j =>
    complete (.add a b) (s.setReg i (aluResult (operandValue (s.reg i) + operandValue (s.reg j))))

/-- SUB Ra, Rb (R132). -/
def execSub (a b : Byte) (s : State) : Result :=
  withRegs a b s fun i j =>
    complete (.sub a b) (s.setReg i (aluResult (operandValue (s.reg i) - operandValue (s.reg j))))

/-- MUL Ra, Rb (R133): the high 8 bits of the product are recorded nowhere. -/
def execMul (a b : Byte) (s : State) : Result :=
  withRegs a b s fun i j =>
    complete (.mul a b) (s.setReg i (aluResult (operandValue (s.reg i) * operandValue (s.reg j))))

/-- INC Ra (R134): wraps, also for register 7. -/
def execInc (a : Byte) (s : State) : Result :=
  withReg a s fun i => complete (.inc a) (s.setReg i (aluResult (operandValue (s.reg i) + 1)))

/-- DEC Ra (R135): wraps, also for register 7. -/
def execDec (a : Byte) (s : State) : Result :=
  withReg a s fun i => complete (.dec a) (s.setReg i (aluResult (operandValue (s.reg i) - 1)))

end Sys2Proof.Machine
end

