-- ==== Sys2Proof/Machine/Flags.lean ====
section
/-! DEFINITION. The flags register (spec 10_state.md R33, R34; 42_compare_branch.md R151). CMP is its only writer, JEQ and
JNE its only readers among the dispatched instructions. -/

namespace Sys2Proof.Machine

/-- `fl.L` = `fl[2]`, less-than (10_state.md R33, decision D4). -/
def flagL (f : FlagWord) : Bool := f.getLsbD 2

/-- `fl.G` = `fl[1]`, greater-than. -/
def flagG (f : FlagWord) : Bool := f.getLsbD 1

/-- `fl.E` = `fl[0]`, equal. -/
def flagE (f : FlagWord) : Bool := f.getLsbD 0

/-- What CMP leaves: exactly one bit set, by the unsigned order of the two bytes (42 R151). -/
def compareFlags (p q : Byte) : FlagWord :=
  if p.toNat < q.toNat then 0b100#3
  else if q.toNat < p.toNat then 0b010#3
  else 0b001#3

end Sys2Proof.Machine
end

