-- ==== Sys2Proof/Machine/Branch.lean ====
section
/-! DEFINITION. CMP, JMP, JEQ, JNE (spec 42_compare_branch.md). Targets are absolute, come from a register and are not
validated at the jump (R155). -/

namespace Sys2Proof.Machine

/-- The two ways a conditional branch sets pc itself: the register's value, or past its own two bytes (R153, R154,
conflict C1). -/
def branchTo (taken : Bool) (i : RegIx) (s : State) : State :=
  if taken then s.setPc (pcOfByte (s.reg i)) else s.setPc (s.pc + 2)

/-- CMP Ra, Rb (R151). -/
def execCmp (a b : Byte) (s : State) : Result :=
  withRegs a b s fun i j => complete (.cmp a b) (s.setFl (compareFlags (s.reg i) (s.reg j)))

/-- JMP Ra (R152, decision D10). -/
def execJmp (a : Byte) (s : State) : Result :=
  withReg a s fun i => complete (.jmp a) (branchTo true i s)

/-- JEQ Ra (R153): the index is checked on both paths (decision D19). -/
def execJeq (a : Byte) (s : State) : Result :=
  withReg a s fun i => complete (.jeq a) (branchTo (flagE s.fl) i s)

/-- JNE Ra (R154). -/
def execJne (a : Byte) (s : State) : Result :=
  withReg a s fun i => complete (.jne a) (branchTo (!flagE s.fl) i s)

end Sys2Proof.Machine
end

