-- ==== Sys2Proof/Machine/Data.lean ====
section
/-! DEFINITION. LDI and PRN (spec 44_data_movement.md), and HLT (spec 40_fetch_decode_dispatch.md R116). -/

namespace Sys2Proof.Machine

/-- LDI Ra, imm (R190): every immediate byte is legal. -/
def execLdi (a imm : Byte) (s : State) : Result :=
  withReg a s fun i => complete (.ldi a imm) (s.setReg i imm)

/-- PRN Ra (R191): one byte to the output history; rendering it is the host's (R192). -/
def execPrn (a : Byte) (s : State) : Result :=
  withReg a s fun i => complete (.prn a) (s.emit (s.reg i))

/-- HLT (R116): the status becomes HALTED, so step 5 does nothing and pc stays (R115, decision D14). -/
def execHlt (s : State) : Result := complete .hlt (s.setStatus .halted)

end Sys2Proof.Machine
end

