-- ==== Sys2Proof/Machine/Declared.lean ====
section
/-! DEFINITION. The 17 declared but undispatched opcodes (spec 45_declared_undispatched.md R200 to R217, decision D9). Each
takes the IllegalInstruction fault with its own opcode byte; its operand bytes are not interpreted, so no register index
is checked. The spec forbids giving them any other meaning (R200, R218). -/

namespace Sys2Proof.Machine

/-- Step 3 of the cycle finds no handler for the opcode byte of `i` (40 R113, 45 R200). -/
def undispatched (i : Instr) (s : State) : Result := raiseIllegal (opcode i) s

/-- DIV (R201): raises IllegalInstruction(0xA3). -/
def execDiv (x y : Byte) (s : State) : Result := undispatched (.div x y) s

/-- MOD (R202): raises IllegalInstruction(0xA4). -/
def execMod (x y : Byte) (s : State) : Result := undispatched (.mod x y) s

/-- AND (R203): raises IllegalInstruction(0xA8). -/
def execAnd (x y : Byte) (s : State) : Result := undispatched (.and x y) s

/-- OR (R204): raises IllegalInstruction(0xAA). -/
def execOr (x y : Byte) (s : State) : Result := undispatched (.or x y) s

/-- XOR (R205): raises IllegalInstruction(0xAB). -/
def execXor (x y : Byte) (s : State) : Result := undispatched (.xor x y) s

/-- NOT (R206): raises IllegalInstruction(0x69). -/
def execNot (x : Byte) (s : State) : Result := undispatched (.not x) s

/-- SHL (R207): raises IllegalInstruction(0xAC). -/
def execShl (x y : Byte) (s : State) : Result := undispatched (.shl x y) s

/-- SHR (R208): raises IllegalInstruction(0xAD). -/
def execShr (x y : Byte) (s : State) : Result := undispatched (.shr x y) s

/-- LD (R209): raises IllegalInstruction(0x83). -/
def execLd (x y : Byte) (s : State) : Result := undispatched (.ld x y) s

/-- ST (R210): raises IllegalInstruction(0x84). -/
def execSt (x y : Byte) (s : State) : Result := undispatched (.st x y) s

/-- JGT (R211): raises IllegalInstruction(0x57). -/
def execJgt (x : Byte) (s : State) : Result := undispatched (.jgt x) s

/-- JGE (R212): raises IllegalInstruction(0x5A). -/
def execJge (x : Byte) (s : State) : Result := undispatched (.jge x) s

/-- JLT (R213): raises IllegalInstruction(0x58). -/
def execJlt (x : Byte) (s : State) : Result := undispatched (.jlt x) s

/-- JLE (R214): raises IllegalInstruction(0x59). -/
def execJle (x : Byte) (s : State) : Result := undispatched (.jle x) s

/-- INT (R215): raises IllegalInstruction(0x52). -/
def execInt (x : Byte) (s : State) : Result := undispatched (.int x) s

/-- IRET (R216): raises IllegalInstruction(0x13). -/
def execIret (s : State) : Result := undispatched .iret s

/-- NOP (R217): raises IllegalInstruction(0x00). -/
def execNop (s : State) : Result := undispatched .nop s

end Sys2Proof.Machine
end

