-- ==== Sys2Proof/Machine/Stack.lean ====
section
/-! DEFINITION. PUSH, POP, CALL, RET: the stack pointer controller (spec 43_stack_linkage.md). The stack grows down in
memory from register 7; the implicit steps of SP are guarded and do not wrap (R171). -/

namespace Sys2Proof.Machine

/-- `if x[7] = 0 then raise StackPointerRange(0); x[7] <- x[7] - 1` (R171). -/
def withDecSp (s : State) (k : State → Result) : Result :=
  match s.decSp with
  | none => raise .stackPointerRange 0 s
  | some s' => k s'

/-- `if x[7] = 255 then raise StackPointerRange(255); x[7] <- x[7] + 1` (R171), where `loaded` is the state the handler has
reached and `s` the one at the start of the cycle, to which a raise returns (60 R236). -/
def withIncSp (s loaded : State) (k : State → Result) : Result :=
  match loaded.incSp with
  | none => raise .stackPointerRange 255 s
  | some s' => k s'

/-- PUSH Ra (R172): `x[i]` is read after the decrement, so PUSH R7 stores the decremented SP. -/
def execPush (a : Byte) (s : State) : Result :=
  withReg a s fun i => withDecSp s fun d => complete (.push a) (d.memWrite d.sp (d.reg i))

/-- POP Ra (R173): the guard tests the value about to be incremented, which POP R7 has just loaded. -/
def execPop (a : Byte) (s : State) : Result :=
  withReg a s fun i => withIncSp s (s.setReg i (s.memRead s.sp)) fun t => complete (.pop a) t

/-- The byte CALL stores: the address after its own two bytes (R176). It fits at every pc a fetch can succeed at. -/
def returnAddress (s : State) : Byte := (s.pc + 2).setWidth 8

/-- CALL Ra (R174): `x[i]` is read after the decrement, so CALL R7 jumps to the decremented SP. -/
def execCall (a : Byte) (s : State) : Result :=
  withReg a s fun i => withDecSp s fun d =>
    complete (.call a) ((d.memWrite d.sp (returnAddress s)).setPc (pcOfByte (d.reg i)))

/-- RET (R175). -/
def execRet (s : State) : Result :=
  withIncSp s s fun t => complete .ret (t.setPc (pcOfByte (s.memRead s.sp)))

end Sys2Proof.Machine
end

