-- ==== Sys2Proof/Machine/Step.lean ====
section
/-! DEFINITION. One step is one whole instruction cycle (spec 40_fetch_decode_dispatch.md R110); and the placing of an
instruction where the next cycle fetches it. -/

namespace Sys2Proof.Machine

/-- One cycle. A state that is not RUNNING has no step (R117). A fetch or lookup that fails raises its fault, in this
order (60_exceptions.md R240); otherwise the instruction runs. -/
def step (s : State) : Host.Outcome State Fault Refusal :=
  match s.status with
  | .halted => .fault .noStepHalted
  | .faulted _ => .fault .noStepFaulted
  | .running =>
    match s.fetch with
    | .error addr => raise .addressOutOfRange addr s
    | .ok f =>
      match decode f.bytes with
      | .ok i => exec i s
      | .error _ => raiseIllegal f.ir s

/-- `s` with an instruction, numbered as the opcode table numbers it, at `M[pc]`, `M[pc+1]`, `M[pc+2]`, which is where the
next cycle fetches. Nothing else changes: from reset, pc is 0 and the status is RUNNING. -/
def State.withFetchWord (s : State) (nbits w : Nat) : State :=
  { s with mem := placeBytes s.mem s.pc.toNat (tableBytes nbits w) }

end Sys2Proof.Machine
end

