-- ==== Sys2Proof/Safety.lean ====
section
/-! DEFINITION. What counts as a run's good and bad states, and the words the statements use: when an instruction runs, what
it keeps, and what every reachable state satisfies. -/

namespace Sys2Proof.Machine

/-- The cycle can fetch and go on to the handler: RUNNING, and pc at 0..253 (spec 40_fetch_decode_dispatch.md R110,
R112). -/
abbrev State.Ready (s : State) : Prop := s.status = .running ∧ s.pc.toNat ≤ 253

/-- The end of a run: the first state whose status is not RUNNING (00_scope.md R14). -/
abbrev State.Ended (s : State) : Prop := s.status ≠ .running

/-- The clean end (R14): the run got here by HLT. -/
abbrev State.Clean (s : State) : Prop := s.status = .halted

/-- The opcode byte of the instruction at pc. -/
def State.opcodeHere (s : State) : Byte := s.mem.read s.pc.toNat

/-- The bytes of the instruction at pc decode to `i` (40 R110 steps 1 to 3). -/
abbrev State.Holds (s : State) (i : Instr) : Prop :=
  decode [s.opcodeHere, s.mem.read (s.pc.toNat + 1), s.mem.read (s.pc.toNat + 2)] = .ok i

/-- The program's duty (10_state.md R30, 70 R281, R282): pc is at a fetchable instruction of the dispatch table. -/
abbrev State.Fetchable (s : State) : Prop := s.pc.toNat ≤ 253 ∧ s.opcodeHere ∈ dispatchSet

/-- The operand byte `v` names register `i` (10_state.md R25: the whole byte). -/
abbrev Names (v : Byte) (i : RegIx) : Prop := v.toNat = i.val

/-- Every byte of memory reads as before. -/
abbrev SameMemory (s t : State) : Prop := ∀ a : Byte, t.memRead a = s.memRead a

/-- Every byte of memory but the one at `c` reads as before. -/
abbrev SameMemoryBut (c : Byte) (s t : State) : Prop := ∀ a : Byte, a ≠ c → t.memRead a = s.memRead a

/-- Every register reads as before. -/
abbrev SameRegs (s t : State) : Prop := ∀ k : RegIx, t.reg k = s.reg k

/-- Every register but `i` reads as before. -/
abbrev SameRegsBut (i : RegIx) (s t : State) : Prop := ∀ k : RegIx, k ≠ i → t.reg k = s.reg k

/-- Every register but `i` and `j` reads as before. -/
abbrev SameRegsBut2 (i j : RegIx) (s t : State) : Prop := ∀ k : RegIx, k ≠ i → k ≠ j → t.reg k = s.reg k

/-- The operand bytes (or the number 7, for the implicit SP) that name the registers an instruction may write
(10_state.md R22, R23; 41 to 44). -/
def destinations (i : Instr) : List Byte :=
  match i with
  | .nop => []
  | .hlt => []
  | .ret => [7]
  | .iret => []
  | .push _ => [7]
  | .pop a => [a, 7]
  | .prn _ => []
  | .call _ => [7]
  | .int _ => []
  | .jmp _ => []
  | .jeq _ => []
  | .jne _ => []
  | .jgt _ => []
  | .jlt _ => []
  | .jle _ => []
  | .jge _ => []
  | .inc a => [a]
  | .dec a => [a]
  | .not _ => []
  | .ldi a _ => [a]
  | .ld _ _ => []
  | .st _ _ => []
  | .add a _ => [a]
  | .sub a _ => [a]
  | .mul a _ => [a]
  | .div _ _ => []
  | .mod _ _ => []
  | .cmp _ _ => []
  | .and _ _ => []
  | .or _ _ => []
  | .xor _ _ => []
  | .shl _ _ => []
  | .shr _ _ => []

/-- The value the stack pointer guard reports for a well-formed instruction, where it fires (43_stack_linkage.md R171 to
R175): PUSH and CALL at SP 0; POP and RET where the value to be incremented is 255, which for POP R7 is the byte just
loaded. No other instruction has the guard. -/
def stackGuard (i : Instr) (s : State) : Option Nat :=
  match i with
  | .push _ => if s.reg 7 = 0x00#8 then some 0 else none
  | .call _ => if s.reg 7 = 0x00#8 then some 0 else none
  | .pop a => if (if a = 7#8 then s.memRead (s.reg 7) else s.reg 7) = 0xFF#8 then some 255 else none
  | .ret => if s.reg 7 = 0xFF#8 then some 255 else none
  | .nop => none
  | .hlt => none
  | .iret => none
  | .prn _ => none
  | .int _ => none
  | .jmp _ => none
  | .jeq _ => none
  | .jne _ => none
  | .jgt _ => none
  | .jlt _ => none
  | .jle _ => none
  | .jge _ => none
  | .inc _ => none
  | .dec _ => none
  | .not _ => none
  | .ldi _ _ => none
  | .ld _ _ => none
  | .st _ _ => none
  | .add _ _ => none
  | .sub _ _ => none
  | .mul _ _ => none
  | .div _ _ => none
  | .mod _ _ => none
  | .cmp _ _ => none
  | .and _ _ => none
  | .or _ _ => none
  | .xor _ _ => none
  | .shl _ _ => none
  | .shr _ _ => none

/-- The state a fault leaves (60_exceptions.md R236): `s` with only the status changed, to FAULTED with this record. -/
def State.stopped (s : State) (cause : FaultCause) (op : Option Byte) (detail : Nat) : State :=
  { s with status := .faulted { cause := cause, opcode := op, pc := s.pc, detail := some detail } }

/-- The fault for an operand byte that names no register (60 R234). -/
abbrev FaultsBadIndex (i : Instr) (s : State) (v : Byte) : Prop :=
  exec i s = .next (s.stopped .registerIndexOutOfRange (some s.opcodeHere) v.toNat)

/-- The stack pointer guard's fault (60 R237). -/
abbrev FaultsStackPointer (i : Instr) (s : State) (v : Nat) : Prop :=
  exec i s = .next (s.stopped .stackPointerRange (some s.opcodeHere) v)

/-- The fault of an opcode byte that has no handler (60 R232). -/
abbrev FaultsIllegal (i : Instr) (s : State) (ir : Byte) : Prop :=
  exec i s = .next (s.stopped .illegalInstruction (some ir) ir.toNat)

/-- What a fault record says of the state it stands in (10_state.md R36, 60 R231 to R237). -/
def recordFits (s : State) (r : FaultRecord) : Bool :=
  decide (r.pc = s.pc) && decide (r.opcode = s.opcodeAtPc) &&
    match r.cause with
    | .illegalInstruction =>
      decide (s.pc.toNat ≤ 253) && decide (r.detail = some s.opcodeHere.toNat) && decide (s.opcodeHere ∉ dispatchSet)
    | .addressOutOfRange => decide (254 ≤ s.pc.toNat) && decide (r.detail = some 256)
    | .registerIndexOutOfRange =>
      match r.detail with
      | some v => decide (7 < v) && decide (v ≤ 255)
      | none => false
    | .stackPointerRange => decide (r.detail = some 0) || decide (r.detail = some 255)
    | .aluContractViolation => false

/-- The status, and the record if there is one, fit the state. -/
def statusFits (s : State) : Bool :=
  match s.status with
  | .running => true
  | .halted => true
  | .faulted r => recordFits s r

/-- The flag words of 10_state.md R35: at most one flag set. -/
def legalFlags : List FlagWord := [0b000#3, 0b001#3, 0b010#3, 0b100#3]

/-- What every reachable state satisfies: canonical memory, pc at most 256 (10_state.md R29), at most one flag (R35), and a
fault record, if any, that fits (60 R231 to R237; cause 5 never). -/
abbrev State.Inv (s : State) : Prop :=
  s.mem.wf = true ∧ s.pc.toNat ≤ 256 ∧ s.fl ∈ legalFlags ∧ statusFits s = true

/-- The states of the runs of an image: what some number of steps from its reset state answers (70 R270). -/
def ReachedFrom (image : List Byte) (t : State) : Prop :=
  ∃ s k, bootState image = some s ∧ Host.Core.run Sys2Proof.core k s = .next t

end Sys2Proof.Machine
end

