-- ==== Sys2Proof/Certificates/Slice0/Obligations.lean ====
section
/-! DEFINITION. The statements about the machine, for the provers. Each docstring says what is claimed, and where it rests on
a decision or derivation the spec marks as its own, names it. -/

section
open Sys2Proof Sys2Proof.Machine

/-- When the status is RUNNING, pc is at most 253 and the three bytes at pc, pc+1, pc+2 decode to an instruction i, one
step answers exactly what exec of i answers in the same state. That step adds nothing around exec, so that the advance
of pc (step 5 of the spec's cycle, after the handler) is done inside exec, is the model's choice (log entry 8, DESIGN
CHOICE). [40_fetch_decode_dispatch.md section 1 (R110, R114); log entry 8] -/
def Obligations.StepRunsDecodedInstruction : Prop :=
  ∀ (s : State) (i : Instr), s.Ready →
    decode [s.opcodeHere, s.mem.read (s.pc.toNat + 1), s.mem.read (s.pc.toNat + 2)] = .ok i →
    step s = exec i s

/-- Bytes written bit by bit from rules R90 and R91, one or more for each family, decode to the instruction they stand
for, and 0x48 and 0xC0 are refused as illegal opcodes. The byte values are decision D1 of the spec, which it marks as
general knowledge (log entry 2). [92_eei_decisions.md D1; 30_encoding.md sections 3 and 4] -/
def Obligations.SampleWordsDecode : Prop :=
  decode [0b00000001#8, 0b00000000#8, 0b00000000#8] = .ok .hlt ∧
    decode [0b10000010#8, 0b00000011#8, 0b11111111#8] = .ok (.ldi 3#8 255#8) ∧
    decode [0b10100001#8, 0b00000010#8, 0b00000011#8] = .ok (.sub 2#8 3#8) ∧
    decode [0b10100111#8, 0b00000000#8, 0b00000001#8] = .ok (.cmp 0#8 1#8) ∧
    decode [0b01010101#8, 0b00000010#8, 0b00000000#8] = .ok (.jeq 2#8) ∧
    decode [0b01010000#8, 0b00000001#8, 0b00000000#8] = .ok (.call 1#8) ∧
    decode [0b00010001#8, 0b00000000#8, 0b00000000#8] = .ok .ret ∧
    decode [0b10101101#8, 0b00001001#8, 0b00000001#8] = .ok (.shr 9#8 1#8) ∧
    decode [0b01001000#8, 0b00000000#8, 0b00000000#8] = .error (.illegalOpcode 0x48#8) ∧
    decode [0b11000000#8, 0b00000000#8, 0b00000000#8] = .error (.illegalOpcode 0xC0#8)

/-- For every list of bytes and every instruction, at every operand value: the decoder gives the instruction if and
only if the list is the instruction's encoding followed by some bytes. So decoding an encoded instruction gives it
back whatever follows, and no two instructions share an encoding. [30_encoding.md sections 1 and 3 (R80, R84, R86)] -/
def Obligations.DecodeAndEncodeAgree : Prop :=
  ∀ (bs : List Byte) (i : Instr), decode bs = .ok i ↔ ∃ rest, bs = encode i ++ rest

/-- For every RUNNING state, a step answers a next state, and exactly one of three holds: the status stays RUNNING, pc is
at most 253 and the opcode byte there is a dispatched one other than HLT; the opcode byte is HLT's and only the status
changes, to HALTED; or a fault is taken, the status is FAULTED with a record of pc and of the opcode byte at pc, and
no other architectural state changes. The bound on pc is the spec's own derivation (R112) and its decision D11.
[40_fetch_decode_dispatch.md sections 1 and 3 (R119, R112); 92_eei_decisions.md D11] -/
def Obligations.CycleHasOneOfThreeOutcomes : Prop :=
  ∀ s : State, s.status = .running → ∃ t, step s = .next t ∧
    ((t.status = .running ∧ s.Fetchable ∧ s.opcodeHere ≠ 0x01#8) ∨
      (s.opcodeHere = 0x01#8 ∧ t = { s with status := .halted }) ∨
      (∃ cause detail, t = s.stopped cause s.opcodeAtPc detail))

/-- For every step from a RUNNING state to t, and every detail d. AddressOutOfRange with d is recorded exactly when pc is
254 or above and d is the larger of pc and 256. IllegalInstruction with d is recorded exactly when pc is at most 253,
the opcode byte is not one of the sixteen and d is that byte. RegisterIndexOutOfRange with d is recorded exactly when
pc is at most 253 and the bytes there decode to an instruction whose first register operand above 7 is d.
StackPointerRange with d is recorded exactly when pc is at most 253, the bytes there decode to an instruction whose
register operand, if any, is at most 7, and the guard stops it: PUSH or CALL at SP 0 with d = 0; RET at SP 255, or POP
whose value to be incremented (SP, or for POP of register 7 the byte at SP) is 255, with d = 255. Recorded means that
t is the old state with only the status changed, to a record of that cause and detail, the pc and the opcode byte. A
FAULTED t is one of these, and never has AluContractViolation. The cause names, the fetch bound, the guard, the
priority and the reserved cause are decisions D15, D11, D12, D16 and D25 of the spec; the detail for a pc above 256,
which no run reaches, is the model's reading (log entry 4, DEDUCED); that the model keeps the name of cause 5 at all is
its choice (log entry 9, DESIGN CHOICE). [60_exceptions.md sections 2 and 4; 43_stack_linkage.md section 1 (R171);
92_eei_decisions.md D11, D12, D15, D16, D25; log entries 4 and 9] -/
def Obligations.FaultCausesSayWhatHappened : Prop :=
  ∀ s t : State, s.status = .running → step s = .next t →
    (∀ d, t = s.stopped .addressOutOfRange s.opcodeAtPc d ↔ 254 ≤ s.pc.toNat ∧ d = max s.pc.toNat 256) ∧
    (∀ d, t = s.stopped .illegalInstruction s.opcodeAtPc d ↔
      s.pc.toNat ≤ 253 ∧ s.opcodeHere ∉ dispatchSet ∧ d = s.opcodeHere.toNat) ∧
    (∀ d, t = s.stopped .registerIndexOutOfRange s.opcodeAtPc d ↔
      s.pc.toNat ≤ 253 ∧ ∃ i v, s.Holds i ∧ firstBadIndex i = some v ∧ d = v.toNat) ∧
    (∀ d, t = s.stopped .stackPointerRange s.opcodeAtPc d ↔
      s.pc.toNat ≤ 253 ∧ ∃ i, s.Holds i ∧ wellFormed i = true ∧ stackGuard i s = some d) ∧
    (∀ r, t.status = .faulted r → r.cause ≠ .aluContractViolation ∧ ∃ d, t = s.stopped r.cause s.opcodeAtPc d)

/-- For every RUNNING state with pc at 254 or above, whatever memory holds, a step takes AddressOutOfRange: the detail is
256 for pc 254 and 255 and the pc itself from 256 on, and the recorded opcode is the byte at pc, or none when pc is
above 255. This is decision D11 of the spec, which derives it from its rules of the fetch for pc up to 256; for a pc
above 256, which no run reaches, it is the model's reading of them (log entry 4, DEDUCED).
[40_fetch_decode_dispatch.md section 1; 92_eei_decisions.md D11; log entry 4] -/
def Obligations.FetchPastTheTopFaults : Prop :=
  ∀ s : State, s.status = .running → 254 ≤ s.pc.toNat →
    (s.pc.toNat ≤ 255 → step s = .next (s.stopped .addressOutOfRange (some (s.mem.read s.pc.toNat)) 256)) ∧
    (256 ≤ s.pc.toNat → step s = .next (s.stopped .addressOutOfRange none s.pc.toNat))

/-- For every RUNNING state with pc at most 253 whose byte at pc is not one of the sixteen dispatched ones, be it a
declared opcode or one of the other 223 bytes and whatever the operand bytes are, a step takes IllegalInstruction,
whose cause code is 1, recording that byte as the opcode and as the detail and the pc; nothing else changes. [R232] -/
def Obligations.ByteWithoutHandlerFaults : Prop :=
  ∀ s : State, s.Ready →
    s.opcodeHere ∉ [0x01#8, 0x11#8, 0x45#8, 0x46#8, 0x47#8, 0x50#8, 0x54#8, 0x55#8, 0x56#8, 0x65#8, 0x66#8, 0x82#8,
      0xA0#8, 0xA1#8, 0xA2#8, 0xA7#8] →
    step s = .next (s.stopped .illegalInstruction (some s.opcodeHere) s.opcodeHere.toNat) ∧
      FaultCause.illegalInstruction.code = 1

/-- If the status is HALTED or FAULTED, a step answers no next state. So no fetch, no change and no output follows, and no
step returns the status to RUNNING. [R117] -/
def Obligations.EndedStateHasNoStep : Prop :=
  ∀ s : State, s.Ended → ∀ t, step s ≠ .next t

/-- At reset, memory is in canonical form, pc is at most 256, at most one flag is set and the status fits the state. That
memory is a list in canonical form is the model's choice (log entry 5, DESIGN CHOICE), not the spec's.
[70_reset_and_hazards.md section 1; 10_state.md sections 3 and 4; log entry 5] -/
def Obligations.InvariantAtReset : Prop :=
  State.reset.Inv

/-- For every state that satisfies the invariant, reachable or not, if a step answers a next state then that state
satisfies it: memory in canonical form, pc at most 256, fl one of 000, 001, 010, 100, and a fault record, if any, with
the pc and opcode byte of the state it stands in, a detail that fits its cause (256 for AddressOutOfRange), and never
cause 5. The 9-bit pc, the flag positions and the reserved cause 5 are decisions D18, D4 and D25 of the spec; that the
model keeps the name of cause 5 at all is its choice (log entry 9, DESIGN CHOICE). That memory is a list in canonical
form is the model's choice (log entry 5, DESIGN CHOICE), not the spec's. [10_state.md sections 3 and 4;
60_exceptions.md section 2; 92_eei_decisions.md D4, D18, D25; log entry 5; log entry 9] -/
def Obligations.StepKeepsInvariant : Prop :=
  ∀ s t : State, s.Inv → step s = .next t → t.Inv

/-- For every image of at most 256 bytes there is a reset state in which address k holds byte k of the image and every
other address holds 0; its pc is 0, its flags are clear, SP is 0xF4 and the other registers 0, it is RUNNING with
empty output, and it satisfies the invariant, memory's canonical form among it (the model's choice, log entry 5,
DESIGN CHOICE). A longer image has no reset state. The zeros, pc 0 and the length bound are decisions D5 to D8 and D20
of the spec. [70_reset_and_hazards.md sections 1 and 2; 92_eei_decisions.md D5 to D8, D20; log entry 5] -/
def Obligations.LoadedImageBoots : Prop :=
  ∀ image : List Byte,
    (image.length ≤ 256 → ∃ s, bootState image = some s ∧ s.Inv ∧
      (∀ (k : Nat) (h : k < image.length), s.mem.read k = image[k]) ∧
      (∀ k : Nat, image.length ≤ k → s.mem.read k = 0x00#8) ∧
      s.pc = 0#9 ∧ s.fl = 0b000#3 ∧ s.status = .running ∧ s.out = [] ∧
      s.reg 7 = 0xF4#8 ∧ (∀ k : RegIx, k ≠ 7 → s.reg k = 0x00#8)) ∧
    (256 < image.length → bootState image = none)

/-- For every image and every number of steps: a state reached from the image's reset state satisfies the invariant:
memory in canonical form, pc at most 256, fl one of 000, 001, 010, 100, and a fault record, if any, with the pc and
opcode byte of the state it stands in, a detail that fits its cause (256 for AddressOutOfRange), and never cause 5.
The bound on pc is decision D18 and the spec's own derivation from R31 and R112; the flag positions and the reserved
cause are decisions D4 and D25; that the model keeps the name of cause 5 at all is its choice (log entry 9, DESIGN
CHOICE). That memory is a list in canonical form is the model's choice (log entry 5, DESIGN CHOICE), not the spec's.
[10_state.md sections 3 and 4; 60_exceptions.md section 2; 92_eei_decisions.md D4, D18, D25; log entry 5; log entry 9] -/
def Obligations.ReachedStatesSatisfyInvariant : Prop :=
  ∀ (image : List Byte) (t : State), ReachedFrom image t → t.Inv

/-- The reset state with no image: x[7] is 0xF4 and is the stack pointer, the other registers are 0, pc is 0, fl is
000, status is RUNNING, out is empty and every byte of memory reads 0. The zeros are decisions D5 to D8 of the spec,
named in log entry 2. [70_reset_and_hazards.md section 1; 92_eei_decisions.md D5 to D8] -/
def Obligations.ResetLeavesTheseValues : Prop :=
  State.reset.reg 7 = 0xF4#8 ∧ State.reset.sp = State.reset.reg 7 ∧
    (∀ k : RegIx, k ≠ 7 → State.reset.reg k = 0x00#8) ∧
    State.reset.pc = 0#9 ∧ State.reset.fl = 0b000#3 ∧ State.reset.status = .running ∧ State.reset.out = [] ∧
    (∀ a : Byte, State.reset.memRead a = 0x00#8)

/-- For every instruction with a register operand byte above 7, exec takes RegisterIndexOutOfRange with the first such
byte as detail, before any change, whatever the stack pointer and the flags are; and a well-formed instruction never
records that cause. The order of the checks is decision D16, the check on both branch paths D19. [10_state.md section
2; 60_exceptions.md section 4; 92_eei_decisions.md D16, D19] -/
def Obligations.BadRegisterIndexFaults : Prop :=
  (∀ (i : Instr) (s : State) (v : Byte), s.Ready → firstBadIndex i = some v → FaultsBadIndex i s v) ∧
    (∀ (i : Instr) (s t : State) (r : FaultRecord), s.Ready → wellFormed i = true → exec i s = .next t →
      t.status = .faulted r → r.cause ≠ .registerIndexOutOfRange)

/-- For every instruction with any operand bytes and every state, exec answers a next state: no instruction is refused and
none stops the model. The spec says so of RUNNING states (R118); that exec answers in HALTED and FAULTED states too,
which have no step (R117), and with pc at 254 or above, where the fetch faults first (R112), is the model's choice:
exec checks neither the status nor the fetch, step does (log entry 8, DESIGN CHOICE). [40_fetch_decode_dispatch.md
section 3 (R118); 93_implementation_defined.md section 1; log entry 8] -/
def Obligations.EveryInstructionAnswers : Prop :=
  ∀ (i : Instr) (s : State), ∃ t, exec i s = .next t

/-- For every instruction and state, a register that is neither the destination operand (LDI, ADD, SUB, MUL, INC, DEC,
POP) nor the stack pointer of PUSH, POP, CALL, RET reads after exec as before; for the other instructions every
register does. That exec answers at all in a state that cannot run the instruction (not RUNNING, or pc at 254 or
above) is the model's choice (log entry 8, DESIGN CHOICE). [10_state.md section 2 (R22, R26); 43_stack_linkage.md
section 1; log entry 8] -/
def Obligations.OnlyDestinationsChange : Prop :=
  ∀ (i : Instr) (s t : State) (k : RegIx), exec i s = .next t → regByte k ∉ destinations i → t.reg k = s.reg k

/-- For every instruction and state, if fl after exec differs from fl before, the instruction is a CMP whose operands name
registers; and what it leaves has exactly one of the three bits set. That exec answers at all in a state that cannot
run the instruction (not RUNNING, or pc at 254 or above) is the model's choice (log entry 8, DESIGN CHOICE).
[10_state.md section 4 (R34); 42_compare_branch.md (R150, R151); log entry 8] -/
def Obligations.OnlyCmpWritesFlags : Prop :=
  ∀ (i : Instr) (s t : State), exec i s = .next t → t.fl ≠ s.fl →
    (∃ a b, i = .cmp a b ∧ a.toNat ≤ 7 ∧ b.toNat ≤ 7) ∧ (t.fl = 0b100#3 ∨ t.fl = 0b010#3 ∨ t.fl = 0b001#3)

/-- For every instruction and state, every byte of memory reads after exec as before, except for PUSH and CALL, where only
the byte at SP - 1 may differ. That exec answers at all in a state that cannot run the instruction (not RUNNING, or pc
at 254 or above) is the model's choice (log entry 8, DESIGN CHOICE). [10_state.md section 6 (R38); 90_conflicts.md C7;
log entry 8] -/
def Obligations.OnlyPushAndCallStore : Prop :=
  ∀ (i : Instr) (s t : State), exec i s = .next t →
    SameMemory s t ∨ ((∃ a, i = .push a ∨ i = .call a) ∧ SameMemoryBut (s.sp - 1) s t)

/-- For every instruction and state, the output history after exec is the one before, or the instruction is a PRN of a
register and its value is appended; nothing is removed. That exec answers at all in a state that cannot run the
instruction (not RUNNING, or pc at 254 or above) is the model's choice (log entry 8, DESIGN CHOICE). [10_state.md
section 5 (R37); 44_data_movement.md (R191); log entry 8] -/
def Obligations.OutputGrowsOnlyByPrn : Prop :=
  ∀ (i : Instr) (s t : State), exec i s = .next t →
    t.out = s.out ∨ ∃ a k, i = .prn a ∧ Names a k ∧ t.out = s.out ++ [s.reg k]

/-- For every instruction that is not CMP, JEQ or JNE, and any two states that differ only in fl, exec gives states that
differ only in fl, each with the fl it had. That exec answers at all in a state that cannot run the instruction (not
RUNNING, or pc at 254 or above) is the model's choice (log entry 8, DESIGN CHOICE). [10_state.md section 4 (R34); log
entry 8] -/
def Obligations.OtherInstructionsIgnoreFlags : Prop :=
  ∀ (i : Instr) (s t : State) (f : FlagWord),
    (∀ a b, i ≠ .cmp a b) → (∀ a, i ≠ .jeq a) → (∀ a, i ≠ .jne a) →
    exec i s = .next t → exec i { s with fl := f } = .next { t with fl := f }

/-- For every instruction whose opcode byte has bit 4 clear, from a RUNNING state with pc at most 253: if it completes
RUNNING, pc has grown by the number of its bytes, which is bits 7:6 of its opcode byte plus 1, counted as integers
without wrapping. Bit 4's position is decision D2 of the spec. That exec itself makes the advance is the model's
choice (log entry 8, DESIGN CHOICE). [10_state.md section 3 (R31); 40_fetch_decode_dispatch.md section 1;
92_eei_decisions.md D2; log entry 8] -/
def Obligations.PcAdvancesByLength : Prop :=
  ∀ (i : Instr) (s t : State), s.Ready → (opcode i).getLsbD 4 = false → exec i s = .next t → t.status = .running →
    t.pc.toNat = s.pc.toNat + (encode i).length ∧ (encode i).length = (opcode i).toNat / 64 + 1

/-- For every operand bytes and every RUNNING state with pc at most 253: the encoding is 0xA0 and the two operand
bytes. If they name registers i and j, register i becomes their sum modulo 256, also when i = j or i = 7; every other
register, the flags, the output and all of memory are kept, and pc grows by 3. If the first byte is above 7,
RegisterIndexOutOfRange of it is taken; if only the second is, of that one; then nothing but the status changes.
[R131] -/
def Obligations.AddIsSumModulo256 : Prop :=
  ∀ (a b : Byte) (s : State), s.Ready →
    encode (.add a b) = [0xA0#8, a, b] ∧
    (∀ i j : RegIx, Names a i → Names b j → ∃ t, exec (.add a b) s = .next t ∧
      (t.reg i).toNat = ((s.reg i).toNat + (s.reg j).toNat) % 256 ∧ SameRegsBut i s t ∧
      t.pc.toNat = s.pc.toNat + 3 ∧ t.fl = s.fl ∧ t.out = s.out ∧ t.status = .running ∧ SameMemory s t) ∧
    (7 < a.toNat → FaultsBadIndex (.add a b) s a) ∧
    (a.toNat ≤ 7 → 7 < b.toNat → FaultsBadIndex (.add a b) s b)

/-- For every operand bytes and every RUNNING state with pc at most 253: the encoding is 0xA1 and the two operand
bytes. If they name registers i and j, register i becomes the first minus the second modulo 256, also when i = j or i
= 7; every other register, the flags, the output and all of memory are kept, and pc grows by 3. If the first byte is
above 7, RegisterIndexOutOfRange of it is taken; if only the second is, of that one; then nothing but the status
changes. [R132] -/
def Obligations.SubIsDifferenceModulo256 : Prop :=
  ∀ (a b : Byte) (s : State), s.Ready →
    encode (.sub a b) = [0xA1#8, a, b] ∧
    (∀ i j : RegIx, Names a i → Names b j → ∃ t, exec (.sub a b) s = .next t ∧
      (t.reg i).toNat = ((s.reg i).toNat + 256 - (s.reg j).toNat) % 256 ∧ SameRegsBut i s t ∧
      t.pc.toNat = s.pc.toNat + 3 ∧ t.fl = s.fl ∧ t.out = s.out ∧ t.status = .running ∧ SameMemory s t) ∧
    (7 < a.toNat → FaultsBadIndex (.sub a b) s a) ∧
    (a.toNat ≤ 7 → 7 < b.toNat → FaultsBadIndex (.sub a b) s b)

/-- For every operand bytes and every RUNNING state with pc at most 253: the encoding is 0xA2 and the two operand
bytes. If they name registers i and j, register i becomes the low 8 bits of their product, also when i = j or i = 7;
every other register, the flags, the output and all of memory are kept, and pc grows by 3. If the first byte is above
7, RegisterIndexOutOfRange of it is taken; if only the second is, of that one; then nothing but the status changes.
[R133] -/
def Obligations.MulIsLowByteOfProduct : Prop :=
  ∀ (a b : Byte) (s : State), s.Ready →
    encode (.mul a b) = [0xA2#8, a, b] ∧
    (∀ i j : RegIx, Names a i → Names b j → ∃ t, exec (.mul a b) s = .next t ∧
      (t.reg i).toNat = ((s.reg i).toNat * (s.reg j).toNat) % 256 ∧ SameRegsBut i s t ∧
      t.pc.toNat = s.pc.toNat + 3 ∧ t.fl = s.fl ∧ t.out = s.out ∧ t.status = .running ∧ SameMemory s t) ∧
    (7 < a.toNat → FaultsBadIndex (.mul a b) s a) ∧
    (a.toNat ≤ 7 → 7 < b.toNat → FaultsBadIndex (.mul a b) s b)

/-- For every operand byte and every RUNNING state with pc at most 253: the encoding is 0x65 and the operand byte. If
it names register i, it becomes its value plus 1 modulo 256, also for register 7, without a guard; every other
register, the flags, the output and all of memory are kept, and pc grows by 2. If it is above 7,
RegisterIndexOutOfRange is taken and nothing but the status changes. [R134] -/
def Obligations.IncAddsOne : Prop :=
  ∀ (a : Byte) (s : State), s.Ready →
    encode (.inc a) = [0x65#8, a] ∧
    (∀ i : RegIx, Names a i → ∃ t, exec (.inc a) s = .next t ∧
      (t.reg i).toNat = ((s.reg i).toNat + 1) % 256 ∧ SameRegsBut i s t ∧
      t.pc.toNat = s.pc.toNat + 2 ∧ t.fl = s.fl ∧ t.out = s.out ∧ t.status = .running ∧ SameMemory s t) ∧
    (7 < a.toNat → FaultsBadIndex (.inc a) s a)

/-- For every operand byte and every RUNNING state with pc at most 253: the encoding is 0x66 and the operand byte. If
it names register i, it becomes its value minus 1 modulo 256, also for register 7, without a guard; every other
register, the flags, the output and all of memory are kept, and pc grows by 2. If it is above 7,
RegisterIndexOutOfRange is taken and nothing but the status changes. [R135] -/
def Obligations.DecSubtractsOne : Prop :=
  ∀ (a : Byte) (s : State), s.Ready →
    encode (.dec a) = [0x66#8, a] ∧
    (∀ i : RegIx, Names a i → ∃ t, exec (.dec a) s = .next t ∧
      (t.reg i).toNat = ((s.reg i).toNat + 255) % 256 ∧ SameRegsBut i s t ∧
      t.pc.toNat = s.pc.toNat + 2 ∧ t.fl = s.fl ∧ t.out = s.out ∧ t.status = .running ∧ SameMemory s t) ∧
    (7 < a.toNat → FaultsBadIndex (.dec a) s a)

/-- For every operand bytes and every RUNNING state with pc at most 253: the encoding is 0xA7 and the two operand
bytes. If they name registers i and j, fl becomes 100 when x[i] < x[j] as unsigned numbers, 010 when x[i] > x[j], 001
when they are equal, whatever fl was; every register, the output and all of memory are kept, and pc grows by 3. A byte
above 7 takes RegisterIndexOutOfRange, the first before the second, with fl unchanged. [R151] -/
def Obligations.CmpSetsExactlyOneFlag : Prop :=
  ∀ (a b : Byte) (s : State), s.Ready →
    encode (.cmp a b) = [0xA7#8, a, b] ∧
    (∀ i j : RegIx, Names a i → Names b j → ∃ t, exec (.cmp a b) s = .next t ∧
      ((s.reg i).toNat < (s.reg j).toNat → t.fl = 0b100#3) ∧
      ((s.reg j).toNat < (s.reg i).toNat → t.fl = 0b010#3) ∧
      ((s.reg i).toNat = (s.reg j).toNat → t.fl = 0b001#3) ∧
      SameRegs s t ∧ t.pc.toNat = s.pc.toNat + 3 ∧ t.out = s.out ∧ t.status = .running ∧ SameMemory s t) ∧
    (7 < a.toNat → FaultsBadIndex (.cmp a b) s a) ∧
    (a.toNat ≤ 7 → 7 < b.toNat → FaultsBadIndex (.cmp a b) s b)

/-- For every operand byte and every RUNNING state with pc at most 253: the encoding is 0x54 and the operand byte. If
it names register i, pc becomes x[i] widened to 9 bits, whatever the target is, and nothing else changes. If it is
above 7, RegisterIndexOutOfRange is taken. JMP's existence, operand and meaning are decision D10 of the spec, which it
marks as general knowledge (log entry 2). [92_eei_decisions.md D10; 42_compare_branch.md section of JMP] -/
def Obligations.JmpGoesToRegister : Prop :=
  ∀ (a : Byte) (s : State), s.Ready →
    encode (.jmp a) = [0x54#8, a] ∧
    (∀ i : RegIx, Names a i → ∃ t, exec (.jmp a) s = .next t ∧ t.pc.toNat = (s.reg i).toNat ∧ SameRegs s t ∧ t.fl = s.fl ∧ t.out = s.out ∧ t.status = .running ∧ SameMemory s t) ∧
    (7 < a.toNat → FaultsBadIndex (.jmp a) s a)

/-- For every operand byte and every RUNNING state with pc at most 253: the encoding is 0x55 and the operand byte. If
it names register i, pc becomes x[i] when bit 0 of fl (E) is set and pc + 2 otherwise; registers, flags, output and
memory are kept. If it is above 7, RegisterIndexOutOfRange is taken whether or not the branch would be. That the index
is checked on both paths is decision D19 of the spec. [42_compare_branch.md section of JEQ; 92_eei_decisions.md D19;
90_conflicts.md C1] -/
def Obligations.JeqBranchesWhenEqual : Prop :=
  ∀ (a : Byte) (s : State), s.Ready →
    encode (.jeq a) = [0x55#8, a] ∧
    (∀ i : RegIx, Names a i → ∃ t, exec (.jeq a) s = .next t ∧
      (s.fl.getLsbD 0 = true → t.pc.toNat = (s.reg i).toNat) ∧
      (s.fl.getLsbD 0 = false → t.pc.toNat = s.pc.toNat + 2) ∧ SameRegs s t ∧ t.fl = s.fl ∧ t.out = s.out ∧ t.status = .running ∧ SameMemory s t) ∧
    (7 < a.toNat → FaultsBadIndex (.jeq a) s a)

/-- For every operand byte and every RUNNING state with pc at most 253: the encoding is 0x56 and the operand byte. If
it names register i, pc becomes x[i] when bit 0 of fl (E) is clear and pc + 2 otherwise; registers, flags, output and
memory are kept. If it is above 7, RegisterIndexOutOfRange is taken whether or not the branch would be. [R154] -/
def Obligations.JneBranchesWhenNotEqual : Prop :=
  ∀ (a : Byte) (s : State), s.Ready →
    encode (.jne a) = [0x56#8, a] ∧
    (∀ i : RegIx, Names a i → ∃ t, exec (.jne a) s = .next t ∧
      (s.fl.getLsbD 0 = false → t.pc.toNat = (s.reg i).toNat) ∧
      (s.fl.getLsbD 0 = true → t.pc.toNat = s.pc.toNat + 2) ∧ SameRegs s t ∧ t.fl = s.fl ∧ t.out = s.out ∧ t.status = .running ∧ SameMemory s t) ∧
    (7 < a.toNat → FaultsBadIndex (.jne a) s a)

/-- For every operand byte and every RUNNING state with pc at most 253 and canonical memory: the encoding is 0x45 and the
operand byte. If it names register i and SP is not 0, SP falls by 1 and the byte at the new SP becomes x[i], or the
lowered SP itself when i is 7; every other byte of memory, every other register, the flags and the output are kept,
and pc grows by 2. With SP 0 it takes StackPointerRange(0); with a byte above 7, RegisterIndexOutOfRange first. The
guard is decision D12; what PUSH R7 stores is the spec's own derivation ("from the statement order the source gives").
The premise of canonical memory concerns the model's own list form (log entry 5, DESIGN CHOICE). [43_stack_linkage.md
sections 1 and 2; 92_eei_decisions.md D12; log entry 5] -/
def Obligations.PushStoresBelowStackPointer : Prop :=
  ∀ (a : Byte) (s : State), s.Ready → s.mem.wf = true →
    encode (.push a) = [0x45#8, a] ∧
    (∀ i : RegIx, Names a i → s.reg 7 ≠ 0x00#8 → ∃ t, exec (.push a) s = .next t ∧
      (t.reg 7).toNat + 1 = (s.reg 7).toNat ∧ SameRegsBut 7 s t ∧
      t.memRead (t.reg 7) = (if i = 7 then t.reg 7 else s.reg i) ∧ SameMemoryBut (t.reg 7) s t ∧
      t.pc.toNat = s.pc.toNat + 2 ∧ t.fl = s.fl ∧ t.out = s.out ∧ t.status = .running) ∧
    (a.toNat ≤ 7 → s.reg 7 = 0x00#8 → FaultsStackPointer (.push a) s 0) ∧
    (7 < a.toNat → FaultsBadIndex (.push a) s a)

/-- For every operand byte and every RUNNING state with pc at most 253: the encoding is 0x46 and the operand byte. If
it names a register i other than 7 and SP is not 255, x[i] becomes the byte at SP and SP grows by 1. If it names 7 and
the byte at SP is not 255, SP becomes that byte plus 1. All of memory, every other register, the flags and the output
are kept, and pc grows by 2. In the two left-out cases it takes StackPointerRange(255), and with a byte above 7
RegisterIndexOutOfRange first. The guard is decision D12; the case of register 7 is the spec's own derivation ("from
the statement order the source gives"). [43_stack_linkage.md sections 1 and 2; 92_eei_decisions.md D12] -/
def Obligations.PopLoadsAndRaisesStackPointer : Prop :=
  ∀ (a : Byte) (s : State), s.Ready →
    encode (.pop a) = [0x46#8, a] ∧
    (∀ i : RegIx, Names a i → i ≠ 7 → s.reg 7 ≠ 0xFF#8 → ∃ t, exec (.pop a) s = .next t ∧
      t.reg i = s.memRead (s.reg 7) ∧ (t.reg 7).toNat = (s.reg 7).toNat + 1 ∧ SameRegsBut2 i 7 s t ∧
      t.pc.toNat = s.pc.toNat + 2 ∧ t.fl = s.fl ∧ t.out = s.out ∧ t.status = .running ∧ SameMemory s t) ∧
    (Names a 7 → s.memRead (s.reg 7) ≠ 0xFF#8 → ∃ t, exec (.pop a) s = .next t ∧
      (t.reg 7).toNat = (s.memRead (s.reg 7)).toNat + 1 ∧ SameRegsBut 7 s t ∧
      t.pc.toNat = s.pc.toNat + 2 ∧ t.fl = s.fl ∧ t.out = s.out ∧ t.status = .running ∧ SameMemory s t) ∧
    (a.toNat < 7 → s.reg 7 = 0xFF#8 → FaultsStackPointer (.pop a) s 255) ∧
    (a.toNat = 7 → s.memRead (s.reg 7) = 0xFF#8 → FaultsStackPointer (.pop a) s 255) ∧
    (7 < a.toNat → FaultsBadIndex (.pop a) s a)

/-- For every operand byte and every RUNNING state with pc at most 253 and canonical memory: the encoding is 0x50 and the
operand byte. If it names register i and SP is not 0, SP falls by 1, the byte at the new SP becomes pc + 2, and pc
becomes x[i], or the lowered SP itself when i is 7; every other byte of memory, every other register, the flags and
the output are kept. With SP 0 it takes StackPointerRange(0), with a byte above 7 RegisterIndexOutOfRange first, and
nothing but the status changes. The premise of canonical memory concerns the model's own list form (log entry 5,
DESIGN CHOICE). [R174] -/
def Obligations.CallSavesReturnAddressAndJumps : Prop :=
  ∀ (a : Byte) (s : State), s.Ready → s.mem.wf = true →
    encode (.call a) = [0x50#8, a] ∧
    (∀ i : RegIx, Names a i → s.reg 7 ≠ 0x00#8 → ∃ t, exec (.call a) s = .next t ∧
      (t.reg 7).toNat + 1 = (s.reg 7).toNat ∧ SameRegsBut 7 s t ∧
      (t.memRead (t.reg 7)).toNat = s.pc.toNat + 2 ∧ SameMemoryBut (t.reg 7) s t ∧
      t.pc.toNat = (if i = 7 then t.reg 7 else s.reg i).toNat ∧ t.fl = s.fl ∧ t.out = s.out ∧ t.status = .running) ∧
    (a.toNat ≤ 7 → s.reg 7 = 0x00#8 → FaultsStackPointer (.call a) s 0) ∧
    (7 < a.toNat → FaultsBadIndex (.call a) s a)

/-- For every RUNNING state with pc at most 253: the encoding is the one byte 0x11. If SP is not 255, pc becomes the
byte at SP, whoever put it there, and SP grows by 1; every other register, the flags, the output and all of memory are
kept. With SP 255 it takes StackPointerRange(255) and nothing but the status changes. [R175] -/
def Obligations.RetReturnsToStackedByte : Prop :=
  ∀ s : State, s.Ready →
    encode .ret = [0x11#8] ∧
    (s.reg 7 ≠ 0xFF#8 → ∃ t, exec .ret s = .next t ∧
      t.pc.toNat = (s.memRead (s.reg 7)).toNat ∧ (t.reg 7).toNat = (s.reg 7).toNat + 1 ∧ SameRegsBut 7 s t ∧
      t.fl = s.fl ∧ t.out = s.out ∧ t.status = .running ∧ SameMemory s t) ∧
    (s.reg 7 = 0xFF#8 → FaultsStackPointer .ret s 255)

/-- For every operand byte, every immediate byte and every RUNNING state with pc at most 253: the encoding is 0x82,
the operand byte and the immediate. If the operand names register i, it becomes the immediate, whatever that is; every
other register, the flags, the output and all of memory are kept, and pc grows by 3. If it is above 7,
RegisterIndexOutOfRange is taken and nothing but the status changes. [R190] -/
def Obligations.LdiLoadsImmediate : Prop :=
  ∀ (a imm : Byte) (s : State), s.Ready →
    encode (.ldi a imm) = [0x82#8, a, imm] ∧
    (∀ i : RegIx, Names a i → ∃ t, exec (.ldi a imm) s = .next t ∧
      t.reg i = imm ∧ SameRegsBut i s t ∧ t.pc.toNat = s.pc.toNat + 3 ∧ t.fl = s.fl ∧ t.out = s.out ∧ t.status = .running ∧ SameMemory s t) ∧
    (7 < a.toNat → FaultsBadIndex (.ldi a imm) s a)

/-- For every operand byte and every RUNNING state with pc at most 253: the encoding is 0x47 and the operand byte. If
it names register i, the output history gains x[i] at its end; registers, flags and all of memory are kept, and pc
grows by 2. If it is above 7, RegisterIndexOutOfRange is taken with nothing emitted. [R191] -/
def Obligations.PrnEmitsRegister : Prop :=
  ∀ (a : Byte) (s : State), s.Ready →
    encode (.prn a) = [0x47#8, a] ∧
    (∀ i : RegIx, Names a i → ∃ t, exec (.prn a) s = .next t ∧
      t.out = s.out ++ [s.reg i] ∧ SameRegs s t ∧ t.pc.toNat = s.pc.toNat + 2 ∧
      t.fl = s.fl ∧ t.status = .running ∧ SameMemory s t) ∧
    (7 < a.toNat → FaultsBadIndex (.prn a) s a)

/-- For every RUNNING state with pc at most 253: the encoding is the one byte 0x01, exec of HLT answers the same state
with status HALTED, pc still at the HLT byte, and a step from that state answers no next state. That pc stays is
decision D14 of the spec. [40_fetch_decode_dispatch.md section 2; 92_eei_decisions.md D14] -/
def Obligations.HltHaltsInPlace : Prop :=
  ∀ s : State, s.Ready →
    encode .hlt = [0x01#8] ∧
    ∃ t, exec .hlt s = .next t ∧ t.Clean ∧ t.pc = s.pc ∧ SameRegs s t ∧ t.fl = s.fl ∧ t.out = s.out ∧
      SameMemory s t ∧ ∀ u, step t ≠ .next u

/-- For each of DIV, MOD, AND, OR, XOR, NOT, SHL, SHR, with any operand bytes (none is interpreted, a byte above 7
included) and in every RUNNING state with pc at most 253: the encoding is its opcode byte (0xA3, 0xA4, 0xA8, 0xAA,
0xAB, 0x69, 0xAC, 0xAD, in this order) and its operand bytes, and exec takes IllegalInstruction with that byte as
recorded opcode and detail and the pc; registers, pc, flags, memory and output are kept. [R201; R202; R203; R204;
R205; R206; R207; R208] -/
def Obligations.UndispatchedArithmeticFaults : Prop :=
  ∀ (x y : Byte) (s : State), s.Ready →
    encode (.div x y) = [0xA3#8, x, y] ∧ FaultsIllegal (.div x y) s 0xA3#8 ∧
    encode (.mod x y) = [0xA4#8, x, y] ∧ FaultsIllegal (.mod x y) s 0xA4#8 ∧
    encode (.and x y) = [0xA8#8, x, y] ∧ FaultsIllegal (.and x y) s 0xA8#8 ∧
    encode (.or x y) = [0xAA#8, x, y] ∧ FaultsIllegal (.or x y) s 0xAA#8 ∧
    encode (.xor x y) = [0xAB#8, x, y] ∧ FaultsIllegal (.xor x y) s 0xAB#8 ∧
    encode (.not x) = [0x69#8, x] ∧ FaultsIllegal (.not x) s 0x69#8 ∧
    encode (.shl x y) = [0xAC#8, x, y] ∧ FaultsIllegal (.shl x y) s 0xAC#8 ∧
    encode (.shr x y) = [0xAD#8, x, y] ∧ FaultsIllegal (.shr x y) s 0xAD#8

/-- For each of LD, ST, JGT, JGE, JLT, JLE, with any operand bytes (none is interpreted, a byte above 7 included) and
in every RUNNING state with pc at most 253: the encoding is its opcode byte (0x83, 0x84, 0x57, 0x5A, 0x58, 0x59, in
this order) and its operand bytes, and exec takes IllegalInstruction with that byte as recorded opcode and detail and
the pc; registers, pc, flags, memory and output are kept. [R209; R210; R211; R212; R213; R214] -/
def Obligations.UndispatchedLoadsAndJumpsFault : Prop :=
  ∀ (x y : Byte) (s : State), s.Ready →
    encode (.ld x y) = [0x83#8, x, y] ∧ FaultsIllegal (.ld x y) s 0x83#8 ∧
    encode (.st x y) = [0x84#8, x, y] ∧ FaultsIllegal (.st x y) s 0x84#8 ∧
    encode (.jgt x) = [0x57#8, x] ∧ FaultsIllegal (.jgt x) s 0x57#8 ∧
    encode (.jge x) = [0x5A#8, x] ∧ FaultsIllegal (.jge x) s 0x5A#8 ∧
    encode (.jlt x) = [0x58#8, x] ∧ FaultsIllegal (.jlt x) s 0x58#8 ∧
    encode (.jle x) = [0x59#8, x] ∧ FaultsIllegal (.jle x) s 0x59#8

/-- For each of INT, IRET, NOP, with any operand bytes (none is interpreted, a byte above 7 included) and in every
RUNNING state with pc at most 253: the encoding is its opcode byte (0x52, 0x13, 0x00, in this order) and its operand
bytes, and exec takes IllegalInstruction with that byte as recorded opcode and detail and the pc; registers, pc,
flags, memory and output are kept. [R215; R216; R217] -/
def Obligations.InterruptOpcodesAndNopFault : Prop :=
  ∀ (x : Byte) (s : State), s.Ready →
    encode (.int x) = [0x52#8, x] ∧ FaultsIllegal (.int x) s 0x52#8 ∧
    encode .iret = [0x13#8] ∧ FaultsIllegal .iret s 0x13#8 ∧
    encode .nop = [0x00#8] ∧ FaultsIllegal .nop s 0x00#8

/-- From a RUNNING state with pc at most 251, canonical memory and SP not 0, for registers i and j other than 7 and
different: PUSH of i answers a next state, which is RUNNING with pc at most 253, and POP into j there answers a next
state, in which x[j] is the old x[i], SP is the old SP, every other register is kept, every byte but the one at the
old SP - 1 is kept, and pc has grown by 4. The bound on pc lets both instructions be fetched (R112). The premise of
canonical memory concerns the model's own list form (log entry 5, DESIGN CHOICE). [43_stack_linkage.md section 3
(R177); 40_fetch_decode_dispatch.md section 1 (R112); log entry 5] -/
def Obligations.PushThenPopRestores : Prop :=
  ∀ (a b : Byte) (i j : RegIx) (s : State), s.status = .running → s.pc.toNat ≤ 251 → s.mem.wf = true →
    Names a i → Names b j → i ≠ 7 → j ≠ 7 → i ≠ j → s.reg 7 ≠ 0x00#8 →
    ∃ t u, exec (.push a) s = .next t ∧ t.Ready ∧ exec (.pop b) t = .next u ∧
      u.reg j = s.reg i ∧ u.reg 7 = s.reg 7 ∧ SameRegsBut j s u ∧ SameMemoryBut (s.reg 7 - 1) s u ∧
      u.pc.toNat = s.pc.toNat + 4

/-- From a RUNNING state with pc at most 247, canonical memory and SP at least 2, for registers i, j, k, l other than 7
with k and l different: PUSH i, PUSH j, POP k, POP l each answer a next state, and each of the last three begins
RUNNING with pc at most 253; at the end x[k] is the old x[j], x[l] is the old x[i] and SP is the old SP. The bound on
pc lets all four instructions be fetched (R112). The premise of canonical memory concerns the model's own list form
(log entry 5, DESIGN CHOICE). [43_stack_linkage.md section 3 (R177); 40_fetch_decode_dispatch.md section 1 (R112); log
entry 5] -/
def Obligations.NestedPushesPopInReverse : Prop :=
  ∀ (a b c d : Byte) (i j k l : RegIx) (s : State), s.status = .running → s.pc.toNat ≤ 247 → s.mem.wf = true →
    Names a i → Names b j → Names c k → Names d l → i ≠ 7 → j ≠ 7 → k ≠ 7 → l ≠ 7 → k ≠ l → 2 ≤ (s.reg 7).toNat →
    ∃ t u v w, exec (.push a) s = .next t ∧ t.Ready ∧ exec (.push b) t = .next u ∧ u.Ready ∧
      exec (.pop c) u = .next v ∧ v.Ready ∧ exec (.pop d) v = .next w ∧
      w.reg k = s.reg j ∧ w.reg l = s.reg i ∧ w.reg 7 = s.reg 7

/-- From a RUNNING state with pc at most 253, canonical memory and SP not 0, CALL of register i answers a next state t;
and from any RUNNING state v with pc at most 253 (R112: else RET cannot execute), t's SP and t's byte at that SP, RET
answers a next state whose pc is the CALL's pc + 2 and whose SP is the old SP. The address computed for the return is
the spec's own derivation (R176: it always fits in a byte). The premise of canonical memory concerns the model's own
list form (log entry 5, DESIGN CHOICE). [43_stack_linkage.md section 3 (R177); 40_fetch_decode_dispatch.md section 1
(R112); log entry 5] -/
def Obligations.CallThenRetReturns : Prop :=
  ∀ (a : Byte) (i : RegIx) (s : State), s.Ready → s.mem.wf = true → Names a i → s.reg 7 ≠ 0x00#8 →
    ∃ t, exec (.call a) s = .next t ∧
      ∀ v : State, v.Ready → v.reg 7 = t.reg 7 → v.memRead (v.reg 7) = t.memRead (t.reg 7) →
        ∃ u, exec .ret v = .next u ∧ u.pc.toNat = s.pc.toNat + 2 ∧ u.reg 7 = s.reg 7

/-- From a RUNNING state with pc at most 250, for different registers i and j: ADD i, j answers a next state, SUB i, j
there answers a next state, and every register has its old value. [41_alu.md section 4 (R137)] -/
def Obligations.SubAfterAddRestoresRegister : Prop :=
  ∀ (a b : Byte) (i j : RegIx) (s : State), s.status = .running → s.pc.toNat ≤ 250 → Names a i → Names b j → i ≠ j →
    ∃ t u, exec (.add a b) s = .next t ∧ exec (.sub a b) t = .next u ∧ SameRegs s u

/-- From a RUNNING state with pc at most 250, for registers i, j and k: CMP i, j answers a next state t; there JEQ k
goes to x[k] if x[i] = x[j] and to pc + 5 otherwise, JNE k the other way round, L is set exactly when x[i] < x[j] and
G exactly when x[i] > x[j]. The table is the spec's own derivation (R156, derived from R151, R153 and R154).
[42_compare_branch.md table of flag outcomes] -/
def Obligations.CompareDecidesTheBranch : Prop :=
  ∀ (a b c : Byte) (i j k : RegIx) (s : State), s.status = .running → s.pc.toNat ≤ 250 →
    Names a i → Names b j → Names c k →
    ∃ t u v, exec (.cmp a b) s = .next t ∧ exec (.jeq c) t = .next u ∧ exec (.jne c) t = .next v ∧
      u.pc.toNat = (if s.reg i = s.reg j then (s.reg k).toNat else s.pc.toNat + 5) ∧
      v.pc.toNat = (if s.reg i = s.reg j then s.pc.toNat + 5 else (s.reg k).toNat) ∧
      (flagL t.fl = true ↔ (s.reg i).toNat < (s.reg j).toNat) ∧
      (flagG t.fl = true ↔ (s.reg j).toNat < (s.reg i).toNat)

/-- If two memories are in canonical form and every one of the 256 addresses reads alike in both, they are the same
list: equal memories are equal data. The form is the model's choice (log entry 5). [20_memory.md section 1;
10_state.md section 6] -/
def Obligations.ReadsDetermineMemory : Prop :=
  ∀ m n : Memory, m.wf = true → n.wf = true → (∀ a : Nat, a < 256 → m.read a = n.read a) → m = n

/-- For a memory in canonical form and every address below 256, writing there the byte it reads as gives the same memory.
The premise of canonical memory concerns the model's own list form (log entry 5, DESIGN CHOICE). [20_memory.md section
2 (R55); log entry 5] -/
def Obligations.RewritingAByteChangesNothing : Prop :=
  ∀ (m : Memory) (a : Nat), m.wf = true → a < 256 → m.write a (m.read a) = m

/-- In a HALTED state step stops as noStepHalted, in a FAULTED state as noStepFaulted, whatever the record. The spec says
only that there is no step (R117); that step answers there by a stop, and these two names, are the model's choice (log
entry 1, DESIGN CHOICE). [40_fetch_decode_dispatch.md section 2; log entry 1] -/
def Obligations.EndedStateStopsByName : Prop :=
  ∀ s : State,
    (s.status = .halted → step s = .fault .noStepHalted) ∧
    (∀ r, s.status = .faulted r → step s = .fault .noStepFaulted)

end
end

