-- ==== Sys2Proof/Laws/Decode.lean ====
section
/-! SUPPORT. The table rows behind `decode`, read back. -/

namespace Sys2Proof

/-- A row without operands is the row of its instruction's opcode byte. -/
theorem opcodeForm_f0 (ir : Byte) (i : Instr) (h : opcodeForm ir = some (.f0 i)) : opcode i = ir ∧ operands i = [] := by
  unfold opcodeForm at h
  split at h <;> cases h <;> exact ⟨rfl, rfl⟩

theorem opcodeForm_f1 (ir : Byte) (make : Byte → Instr) (h : opcodeForm ir = some (.f1 make)) (a : Byte) :
    opcode (make a) = ir ∧ operands (make a) = [a] := by
  unfold opcodeForm at h
  split at h <;> cases h <;> exact ⟨rfl, rfl⟩

theorem opcodeForm_f2 (ir : Byte) (make : Byte → Byte → Instr) (h : opcodeForm ir = some (.f2 make)) (a b : Byte) :
    opcode (make a b) = ir ∧ operands (make a b) = [a, b] := by
  unfold opcodeForm at h
  split at h <;> cases h <;> exact ⟨rfl, rfl⟩

/-- The decoder never calls a dispatched byte illegal (spec 30_encoding.md R92). -/
theorem opcodeForm_dispatched (ir : Byte) (h : ir ∈ dispatchSet) : (opcodeForm ir).isSome = true := by
  revert h; revert ir; decide

/-- On the three bytes of a fetch, decoding fails exactly when the opcode byte has no row. -/
theorem decode_three_error (ir a b : Byte) (e : DecodeError) (h : decode [ir, a, b] = .error e) :
    opcodeForm ir = none ∧ e = .illegalOpcode ir := by
  unfold decode at h
  cases hf : opcodeForm ir with
  | none => simp [hf] at h; exact ⟨rfl, h.symm⟩
  | some f => cases f <;> simp [hf] at h

end Sys2Proof
end

