-- ==== Sys2Proof/Laws/State.lean ====
section
/-! SUPPORT. What each update of the state does to each field, and to each read of it, so that no proof unfolds a record
update. -/

namespace Sys2Proof.Machine

@[simp] theorem State.setReg_x (s : State) (i : RegIx) (v : Byte) : (s.setReg i v).x = s.x.set i v := rfl
@[simp] theorem State.setReg_pc (s : State) (i : RegIx) (v : Byte) : (s.setReg i v).pc = s.pc := rfl
@[simp] theorem State.setReg_fl (s : State) (i : RegIx) (v : Byte) : (s.setReg i v).fl = s.fl := rfl
@[simp] theorem State.setReg_mem (s : State) (i : RegIx) (v : Byte) : (s.setReg i v).mem = s.mem := rfl
@[simp] theorem State.setReg_status (s : State) (i : RegIx) (v : Byte) : (s.setReg i v).status = s.status := rfl
@[simp] theorem State.setReg_out (s : State) (i : RegIx) (v : Byte) : (s.setReg i v).out = s.out := rfl
@[simp] theorem State.setReg_memRead (s : State) (i : RegIx) (v : Byte) (c : Byte) : (s.setReg i v).memRead c = s.memRead c := rfl

@[simp] theorem State.setPc_x (s : State) (v : PcWord) : (s.setPc v).x = s.x := rfl
@[simp] theorem State.setPc_pc (s : State) (v : PcWord) : (s.setPc v).pc = v := rfl
@[simp] theorem State.setPc_fl (s : State) (v : PcWord) : (s.setPc v).fl = s.fl := rfl
@[simp] theorem State.setPc_mem (s : State) (v : PcWord) : (s.setPc v).mem = s.mem := rfl
@[simp] theorem State.setPc_status (s : State) (v : PcWord) : (s.setPc v).status = s.status := rfl
@[simp] theorem State.setPc_out (s : State) (v : PcWord) : (s.setPc v).out = s.out := rfl
@[simp] theorem State.setPc_reg (s : State) (v : PcWord) (k : RegIx) : (s.setPc v).reg k = s.reg k := rfl
@[simp] theorem State.setPc_memRead (s : State) (v : PcWord) (c : Byte) : (s.setPc v).memRead c = s.memRead c := rfl

@[simp] theorem State.setFl_x (s : State) (v : FlagWord) : (s.setFl v).x = s.x := rfl
@[simp] theorem State.setFl_pc (s : State) (v : FlagWord) : (s.setFl v).pc = s.pc := rfl
@[simp] theorem State.setFl_fl (s : State) (v : FlagWord) : (s.setFl v).fl = v := rfl
@[simp] theorem State.setFl_mem (s : State) (v : FlagWord) : (s.setFl v).mem = s.mem := rfl
@[simp] theorem State.setFl_status (s : State) (v : FlagWord) : (s.setFl v).status = s.status := rfl
@[simp] theorem State.setFl_out (s : State) (v : FlagWord) : (s.setFl v).out = s.out := rfl
@[simp] theorem State.setFl_reg (s : State) (v : FlagWord) (k : RegIx) : (s.setFl v).reg k = s.reg k := rfl
@[simp] theorem State.setFl_memRead (s : State) (v : FlagWord) (c : Byte) : (s.setFl v).memRead c = s.memRead c := rfl

@[simp] theorem State.setStatus_x (s : State) (v : RunStatus) : (s.setStatus v).x = s.x := rfl
@[simp] theorem State.setStatus_pc (s : State) (v : RunStatus) : (s.setStatus v).pc = s.pc := rfl
@[simp] theorem State.setStatus_fl (s : State) (v : RunStatus) : (s.setStatus v).fl = s.fl := rfl
@[simp] theorem State.setStatus_mem (s : State) (v : RunStatus) : (s.setStatus v).mem = s.mem := rfl
@[simp] theorem State.setStatus_status (s : State) (v : RunStatus) : (s.setStatus v).status = v := rfl
@[simp] theorem State.setStatus_out (s : State) (v : RunStatus) : (s.setStatus v).out = s.out := rfl
@[simp] theorem State.setStatus_reg (s : State) (v : RunStatus) (k : RegIx) : (s.setStatus v).reg k = s.reg k := rfl
@[simp] theorem State.setStatus_memRead (s : State) (v : RunStatus) (c : Byte) : (s.setStatus v).memRead c = s.memRead c := rfl

@[simp] theorem State.memWrite_x (s : State) (a v : Byte) : (s.memWrite a v).x = s.x := rfl
@[simp] theorem State.memWrite_pc (s : State) (a v : Byte) : (s.memWrite a v).pc = s.pc := rfl
@[simp] theorem State.memWrite_fl (s : State) (a v : Byte) : (s.memWrite a v).fl = s.fl := rfl
@[simp] theorem State.memWrite_mem (s : State) (a v : Byte) : (s.memWrite a v).mem = s.mem.write a.toNat v := rfl
@[simp] theorem State.memWrite_status (s : State) (a v : Byte) : (s.memWrite a v).status = s.status := rfl
@[simp] theorem State.memWrite_out (s : State) (a v : Byte) : (s.memWrite a v).out = s.out := rfl
@[simp] theorem State.memWrite_reg (s : State) (a v : Byte) (k : RegIx) : (s.memWrite a v).reg k = s.reg k := rfl

@[simp] theorem State.emit_x (s : State) (v : Byte) : (s.emit v).x = s.x := rfl
@[simp] theorem State.emit_pc (s : State) (v : Byte) : (s.emit v).pc = s.pc := rfl
@[simp] theorem State.emit_fl (s : State) (v : Byte) : (s.emit v).fl = s.fl := rfl
@[simp] theorem State.emit_mem (s : State) (v : Byte) : (s.emit v).mem = s.mem := rfl
@[simp] theorem State.emit_status (s : State) (v : Byte) : (s.emit v).status = s.status := rfl
@[simp] theorem State.emit_out (s : State) (v : Byte) : (s.emit v).out = s.out ++ [v] := rfl
@[simp] theorem State.emit_reg (s : State) (v : Byte) (k : RegIx) : (s.emit v).reg k = s.reg k := rfl
@[simp] theorem State.emit_memRead (s : State) (v : Byte) (c : Byte) : (s.emit v).memRead c = s.memRead c := rfl
@[simp] theorem State.setReg_reg_same (s : State) (i : RegIx) (v : Byte) : (s.setReg i v).reg i = v := by
  simp [State.reg, State.setReg]

@[simp] theorem State.setReg_reg_other (s : State) (i k : RegIx) (v : Byte) (h : k ≠ i) :
    (s.setReg i v).reg k = s.reg k := by
  have h' : i.val ≠ k.val := fun e => h (Fin.ext e.symm)
  simp [State.reg, State.setReg, h']

theorem State.setReg_reg (s : State) (i k : RegIx) (v : Byte) :
    (s.setReg i v).reg k = if k = i then v else s.reg k := by
  by_cases h : k = i
  · subst h; simp
  · simp [h]

@[simp] theorem State.takeFault_eq (s : State) (c : FaultCause) (op : Option Byte) (d : Option Nat) :
    s.takeFault c op d = s.setStatus (.faulted { cause := c, opcode := op, pc := s.pc, detail := d }) := rfl

@[simp] theorem State.setReg_sp (s : State) (v : Byte) : (s.setReg 7 v).sp = v := State.setReg_reg_same s 7 v

/-- `SP` and `x[7]` are the same storage (spec 10_state.md R23). -/
theorem State.sp_eq (s : State) : s.sp = s.reg 7 := rfl

@[simp] theorem State.setPc_setPc (s : State) (v w : PcWord) : (s.setPc v).setPc w = s.setPc w := rfl

end Sys2Proof.Machine
end

