-- ==== Sys2Proof/Laws/Memory.lean ====
section
/-! SUPPORT. Memory: reads after writes, and every operation keeps the canonical form. -/

namespace Sys2Proof.Machine

/-- An address below every listed one reads as the fill value. -/
theorem Memory.read_below (m : Memory) (a : Nat) (h : ∀ c ∈ m, a < c.1) : m.read a = Config.memFill := by
  induction m with
  | nil => rfl
  | cons c rest ih =>
    obtain ⟨k, v⟩ := c
    have hk : a < k := h (k, v) (by simp)
    simp only [Memory.read, if_neg (by omega : ¬ k = a)]
    exact ih fun d hd => h d (by simp [hd])

/-- The canonical form, entry by entry. -/
theorem Memory.wf_cons (k : Nat) (v : Byte) (rest : Memory) :
    Memory.wf ((k, v) :: rest) = true ↔
      k < Config.memSize ∧ v ≠ Config.memFill ∧ (∀ c ∈ rest, k < c.1) ∧ Memory.wf rest = true := by
  simp [Memory.wf, List.all_eq_true, and_assoc]

/-- A write leaves every other address alone. -/
theorem Memory.read_write_other (m : Memory) (a b : Nat) (v : Byte) (h : b ≠ a) : (m.write a v).read b = m.read b := by
  induction m with
  | nil => unfold Memory.write; split <;> simp [Memory.read, h.symm]
  | cons c rest ih =>
    obtain ⟨k, w⟩ := c
    unfold Memory.write
    split
    · split <;> simp [Memory.read, h.symm]
    · split
      · rename_i e; subst e; split <;> simp [Memory.read, h.symm]
      · simp [Memory.read, ih]

/-- A read after a write to the same address gives what was written. -/
theorem Memory.read_write_same (m : Memory) (a : Nat) (v : Byte) (hw : m.wf = true) : (m.write a v).read a = v := by
  induction m with
  | nil => unfold Memory.write; split <;> simp_all [Memory.read]
  | cons c rest ih =>
    obtain ⟨k, w⟩ := c
    obtain ⟨-, -, hlow, hrest⟩ := (Memory.wf_cons k w rest).1 hw
    unfold Memory.write
    split
    next hlt =>
      split
      next hv =>
        rw [hv]
        refine Memory.read_below _ _ fun c hc => ?_
        rcases List.mem_cons.1 hc with rfl | hc
        · exact hlt
        · exact hlt.trans (hlow c hc)
      next => simp [Memory.read]
    next hnlt =>
      split
      next he =>
        split
        next hv => rw [hv]; subst he; exact Memory.read_below _ _ hlow
        next => simp [Memory.read]
      next hne => simp [Memory.read, show ¬ k = a from fun e => hne e.symm, ih hrest]

/-- The addresses a write leaves listed. -/
theorem Memory.mem_write (m : Memory) (a : Nat) (v : Byte) (c : Host.Cell) (hc : c ∈ m.write a v) : c ∈ m ∨ c = (a, v) := by
  induction m with
  | nil => unfold Memory.write at hc; split at hc <;> simp_all
  | cons d rest ih =>
    obtain ⟨k, w⟩ := d
    unfold Memory.write at hc
    split at hc
    · split at hc
      · exact .inl hc
      · rcases List.mem_cons.1 hc with h | h
        · exact .inr h
        · exact .inl h
    · split at hc
      · split at hc
        · exact .inl (List.mem_cons_of_mem _ hc)
        · rcases List.mem_cons.1 hc with h | h
          · exact .inr h
          · exact .inl (List.mem_cons_of_mem _ h)
      · rcases List.mem_cons.1 hc with h | h
        · exact .inl (by simp [h])
        · rcases ih h with h | h
          · exact .inl (List.mem_cons_of_mem _ h)
          · exact .inr h

/-- A write keeps the canonical form. -/
theorem Memory.wf_write (m : Memory) (a : Nat) (v : Byte) (hw : m.wf = true) (ha : a < Config.memSize) :
    (m.write a v).wf = true := by
  induction m with
  | nil =>
    unfold Memory.write
    split
    next => rfl
    next hv => exact (Memory.wf_cons ..).2 ⟨ha, hv, by simp, rfl⟩
  | cons c rest ih =>
    obtain ⟨k, w⟩ := c
    obtain ⟨hk, hwne, hlow, hrest⟩ := (Memory.wf_cons k w rest).1 hw
    unfold Memory.write
    split
    next hlt =>
      split
      next => exact hw
      next hv =>
        refine (Memory.wf_cons ..).2 ⟨ha, hv, fun c hc => ?_, hw⟩
        rcases List.mem_cons.1 hc with rfl | hc
        · exact hlt
        · exact hlt.trans (hlow c hc)
    next hnlt =>
      split
      next he =>
        split
        next => exact hrest
        next hv => subst he; exact (Memory.wf_cons ..).2 ⟨ha, hv, hlow, hrest⟩
      next hne =>
        refine (Memory.wf_cons ..).2 ⟨hk, hwne, fun c hc => ?_, ih hrest⟩
        rcases Memory.mem_write rest a v c hc with h | rfl
        · exact hlow c h
        · show k < a
          omega

/-- Placing bytes keeps the canonical form. -/
theorem Memory.wf_placeBytes (m : Memory) (a : Nat) (bs : List Byte) (hw : m.wf = true) :
    Memory.wf (placeBytes m a bs) = true := by
  induction bs generalizing m a with
  | nil => exact hw
  | cons b rest ih =>
    unfold placeBytes
    split
    next h => exact ih _ _ (Memory.wf_write m a b hw h)
    next => exact ih _ _ hw

/-- Addresses below the placed bytes are untouched. -/
theorem Memory.read_placeBytes_below (m : Memory) (a b : Nat) (bs : List Byte) (h : b < a) :
    Memory.read (placeBytes m a bs) b = m.read b := by
  induction bs generalizing m a with
  | nil => rfl
  | cons v rest ih =>
    unfold placeBytes
    rw [ih _ _ (by omega)]
    split
    · exact Memory.read_write_other m a b v (by omega)
    · rfl

theorem Memory.wf_reset : State.reset.mem.wf = true := rfl

/-- Every store of an instruction is at a byte address, so it keeps the canonical form. -/
theorem State.memWrite_wf (s : State) (a v : Byte) (hw : s.mem.wf = true) : (s.memWrite a v).mem.wf = true :=
  Memory.wf_write s.mem a.toNat v hw a.isLt

@[simp] theorem State.memRead_memWrite_same (s : State) (a v : Byte) (hw : s.mem.wf = true) :
    (s.memWrite a v).memRead a = v :=
  Memory.read_write_same s.mem a.toNat v hw

@[simp] theorem State.memRead_memWrite_other (s : State) (a b v : Byte) (h : b ≠ a) :
    (s.memWrite a v).memRead b = s.memRead b :=
  Memory.read_write_other s.mem a.toNat b.toNat v fun e => h (BitVec.eq_of_toNat_eq e)

end Sys2Proof.Machine
end

