-- ==== Sys2Proof/Laws/Ops.lean ====
section
/-! SUPPORT. For each shared operation, once, everything it can do. -/

namespace Sys2Proof.Machine

/-- A byte that names register `i` passes the check. -/
theorem withReg_names (v : Byte) (i : RegIx) (s : State) (k : RegIx → Result) (h : Names v i) : withReg v s k = k i := by
  have hv : v.toNat < 8 := by have := i.isLt; omega
  simp only [withReg, dif_pos hv]
  congr 1
  exact Fin.ext h

/-- A byte above 7 raises, and nothing after it happens. -/
theorem withReg_above (v : Byte) (s : State) (k : RegIx → Result) (h : 7 < v.toNat) :
    withReg v s k = raise .registerIndexOutOfRange v.toNat s := by
  simp [withReg, show ¬ v.toNat < 8 by omega]

/-- The register-index check: it goes on with the named register, or raises. -/
theorem withReg_cases (v : Byte) (s : State) (k : RegIx → Result) :
    (∃ i, Names v i ∧ withReg v s k = k i) ∨
      (7 < v.toNat ∧ withReg v s k = raise .registerIndexOutOfRange v.toNat s) := by
  by_cases h : v.toNat < 8
  · exact .inl ⟨⟨v.toNat, h⟩, rfl, withReg_names v ⟨v.toNat, h⟩ s k rfl⟩
  · exact .inr ⟨by omega, withReg_above v s k (by omega)⟩

theorem withRegs_names (a b : Byte) (i j : RegIx) (s : State) (k : RegIx → RegIx → Result) (ha : Names a i)
    (hb : Names b j) : withRegs a b s k = k i j := by
  rw [withRegs, withReg_names a i s _ ha, withReg_names b j s _ hb]

/-- The first operand is checked before the second (spec 60_exceptions.md R234). -/
theorem withRegs_cases (a b : Byte) (s : State) (k : RegIx → RegIx → Result) :
    (∃ i j, Names a i ∧ Names b j ∧ withRegs a b s k = k i j) ∨
      (7 < a.toNat ∧ withRegs a b s k = raise .registerIndexOutOfRange a.toNat s) ∨
      (a.toNat ≤ 7 ∧ 7 < b.toNat ∧ withRegs a b s k = raise .registerIndexOutOfRange b.toNat s) := by
  rcases withReg_cases a s (fun i => withReg b s fun j => k i j) with ⟨i, ha, h⟩ | ⟨ha, h⟩
  · rcases withReg_cases b s (fun j => k i j) with ⟨j, hb, h'⟩ | ⟨hb, h'⟩
    · exact .inl ⟨i, j, ha, hb, h.trans h'⟩
    · have : a.toNat ≤ 7 := by have := i.isLt; omega
      exact .inr (.inr ⟨this, hb, h.trans h'⟩)
  · exact .inr (.inl ⟨ha, h⟩)

/-- The guarded decrement: it goes on with SP one lower, or raises at 0 (spec 43_stack_linkage.md R171). -/
theorem withDecSp_cases (s : State) (k : State → Result) :
    (s.sp ≠ 0x00#8 ∧ withDecSp s k = k (s.setReg 7 (s.sp - 1))) ∨
      (s.sp = 0x00#8 ∧ withDecSp s k = raise .stackPointerRange 0 s) := by
  by_cases h : s.sp = 0x00#8
  · exact .inr ⟨h, by simp [withDecSp, State.decSp, h]⟩
  · exact .inl ⟨h, by simp [withDecSp, State.decSp, h, Config.spIndex]⟩

/-- The guarded increment: it goes on with SP one higher, or raises at 255. -/
theorem withIncSp_cases (s loaded : State) (k : State → Result) :
    (loaded.sp ≠ 0xFF#8 ∧ withIncSp s loaded k = k (loaded.setReg 7 (loaded.sp + 1))) ∨
      (loaded.sp = 0xFF#8 ∧ withIncSp s loaded k = raise .stackPointerRange 255 s) := by
  by_cases h : loaded.sp = 0xFF#8
  · exact .inr ⟨h, by simp [withIncSp, State.incSp, h]⟩
  · exact .inl ⟨h, by simp [withIncSp, State.incSp, h, Config.spIndex]⟩

/-- A fault changes the status and nothing else (spec 60_exceptions.md R236). -/
theorem raise_eq (c : FaultCause) (v : Nat) (s : State) : raise c v s = .next (s.stopped c s.opcodeAtPc v) := rfl

theorem raiseIllegal_eq (ir : Byte) (s : State) :
    raiseIllegal ir s = .next (s.stopped .illegalInstruction (some ir) ir.toNat) := rfl

theorem State.opcodeAtPc_ready (s : State) (h : s.pc.toNat ≤ 255) : s.opcodeAtPc = some s.opcodeHere := by
  simp [State.opcodeAtPc, State.opcodeHere, Config.memSize, show s.pc.toNat < 256 by omega]

@[simp] theorem State.stopped_fields (s : State) (c : FaultCause) (op : Option Byte) (d : Nat) :
    (s.stopped c op d).x = s.x ∧ (s.stopped c op d).pc = s.pc ∧ (s.stopped c op d).fl = s.fl ∧
      (s.stopped c op d).mem = s.mem ∧ (s.stopped c op d).out = s.out ∧
      (s.stopped c op d).status = .faulted { cause := c, opcode := op, pc := s.pc, detail := some d } :=
  ⟨rfl, rfl, rfl, rfl, rfl, rfl⟩

/-- Step 5 does nothing for a handler that sets pc itself (spec 40 R115). -/
theorem finishCycle_setsPc (ir : Byte) (s : State) (h : setsPc ir = true) : finishCycle ir s = s := by
  simp [finishCycle, h]

/-- Step 5 does nothing once the machine is not RUNNING. -/
theorem finishCycle_ended (ir : Byte) (s : State) (h : s.status ≠ .running) : finishCycle ir s = s := by
  simp [finishCycle, h]

/-- Step 5 advances pc by the operand count plus 1. -/
theorem finishCycle_advances (ir : Byte) (s : State) (hs : s.status = .running) (h : setsPc ir = false) :
    finishCycle ir s = s.setPc (s.pc + BitVec.ofNat 9 (operandCount ir + 1)) := by
  simp [finishCycle, h, hs]

/-- Step 5 changes at most pc. -/
theorem finishCycle_cases (ir : Byte) (s : State) : ∃ p, finishCycle ir s = s.setPc p := by
  unfold finishCycle
  split
  · exact ⟨_, rfl⟩
  · exact ⟨s.pc, rfl⟩

/-- The fetch succeeds at 0..253 and reads the three bytes from pc on (spec 40 R112). -/
theorem State.fetch_ok (s : State) (h : s.pc.toNat ≤ 253) :
    s.fetch = .ok ⟨s.opcodeHere, s.mem.read (s.pc.toNat + 1), s.mem.read (s.pc.toNat + 2)⟩ := by
  simp [State.fetch, State.fetchRead, State.opcodeHere, Config.memSize, show s.pc.toNat < 256 by omega,
    show s.pc.toNat + 1 < 256 by omega, show s.pc.toNat + 2 < 256 by omega]
  rfl

/-- The fetch fails at 254 and above and reports the first address out of range (spec 40 R112). -/
theorem State.fetch_error (s : State) (h : 254 ≤ s.pc.toNat) : s.fetch = .error (max s.pc.toNat 256) := by
  by_cases h1 : s.pc.toNat < 256
  · by_cases h2 : s.pc.toNat + 1 < 256
    · have : s.pc.toNat = 254 := by omega
      simp [State.fetch, State.fetchRead, Config.memSize, this]
      rfl
    · have : s.pc.toNat = 255 := by omega
      simp [State.fetch, State.fetchRead, Config.memSize, this]
      rfl
  · have : max s.pc.toNat 256 = s.pc.toNat := by omega
    simp [State.fetch, State.fetchRead, Config.memSize, h1, this]
    rfl

end Sys2Proof.Machine
end

