-- ==== Sys2Proof/Laws/Exec.lean ====
section
/-! SUPPORT. What `exec` can answer, once for all instructions: the three faults an instruction can take, or the completed
handler; and what the next state then looks like. -/

namespace Sys2Proof.Machine

/-- What a dispatched instruction can answer: its first bad register operand is reported; or it is well formed and the
stack pointer guard fires; or the guard does not and its handler completes, in the status it began in unless it is HLT's
and at the pc it began at unless it is one that sets pc itself. -/
def HandlerAnswers (i : Instr) (s : State) (r : Result) : Prop :=
  (∃ v, firstBadIndex i = some v ∧ 7 < v.toNat ∧ r = raise .registerIndexOutOfRange v.toNat s) ∨
    (wellFormed i = true ∧ ∃ d, stackGuard i s = some d ∧ r = raise .stackPointerRange d s) ∨
    (wellFormed i = true ∧ stackGuard i s = none ∧ ∃ h, r = complete i h ∧
      (setsPc (opcode i) = false → h.pc = s.pc) ∧ (h.status = s.status ∨ (i = .hlt ∧ h = s.setStatus .halted)))

theorem HandlerAnswers.completes (i : Instr) (s h : State) (hw : wellFormed i = true) (hg : stackGuard i s = none)
    (hs : h.status = s.status) (hp : setsPc (opcode i) = false → h.pc = s.pc) : HandlerAnswers i s (complete i h) :=
  .inr (.inr ⟨hw, hg, h, rfl, hp, .inl hs⟩)

/-- A well-formed instruction is one with no bad register operand. -/
theorem firstBadIndex_none (i : Instr) : firstBadIndex i = none ↔ wellFormed i = true := by
  simp [firstBadIndex, wellFormed]

/-- The guard reports one end of the range. -/
theorem stackGuard_ends (i : Instr) (s : State) (d : Nat) (h : stackGuard i s = some d) : d = 0 ∨ d = 255 := by
  cases i <;> simp [stackGuard] at h <;> omega

theorem isRegIndex_names (v : Byte) (i : RegIx) (h : Names v i) : isRegIndex v = true := by
  have := i.isLt
  simp [isRegIndex]
  omega

theorem isRegIndex_above (v : Byte) (h : 7 < v.toNat) : isRegIndex v = false := by
  simp [isRegIndex]
  omega

/-- An instruction with one register operand: the check, then the rest. -/
theorem HandlerAnswers.ofReg (ins : Instr) (s : State) (v : Byte) (k : RegIx → Result) (ho : regOperands ins = [v])
    (hk : ∀ i, Names v i → wellFormed ins = true → HandlerAnswers ins s (k i)) : HandlerAnswers ins s (withReg v s k) := by
  rcases withReg_cases v s k with ⟨i, hi, h⟩ | ⟨hv, h⟩ <;> rw [h]
  · exact hk i hi (by simp [wellFormed, ho, isRegIndex_names v i hi])
  · exact .inl ⟨v, by simp [firstBadIndex, ho, isRegIndex_above v hv], hv, rfl⟩

/-- An instruction with two register operands. -/
theorem HandlerAnswers.ofRegs (ins : Instr) (s : State) (a b : Byte) (k : RegIx → RegIx → Result)
    (ho : regOperands ins = [a, b]) (hk : ∀ i j, wellFormed ins = true → HandlerAnswers ins s (k i j)) :
    HandlerAnswers ins s (withRegs a b s k) := by
  rcases withRegs_cases a b s k with ⟨i, j, hi, hj, h⟩ | ⟨ha, h⟩ | ⟨ha, hb, h⟩ <;> rw [h]
  · exact hk i j (by simp [wellFormed, ho, isRegIndex_names a i hi, isRegIndex_names b j hj])
  · exact .inl ⟨a, by simp [firstBadIndex, ho, isRegIndex_above a ha], ha, rfl⟩
  · have : isRegIndex a = true := isRegIndex_names a ⟨a.toNat, by omega⟩ rfl
    exact .inl ⟨b, by simp [firstBadIndex, ho, this, isRegIndex_above b hb], hb, rfl⟩

theorem HandlerAnswers.ofDecSp (ins : Instr) (s : State) (k : State → Result) (hw : wellFormed ins = true)
    (hg : stackGuard ins s = if s.sp = 0x00#8 then some 0 else none)
    (hk : stackGuard ins s = none → HandlerAnswers ins s (k (s.setReg 7 (s.sp - 1)))) :
    HandlerAnswers ins s (withDecSp s k) := by
  rcases withDecSp_cases s k with ⟨h0, h⟩ | ⟨h0, h⟩ <;> rw [h]
  · exact hk (hg.trans (if_neg h0))
  · exact .inr (.inl ⟨hw, 0, hg.trans (if_pos h0), rfl⟩)

theorem HandlerAnswers.ofIncSp (ins : Instr) (s loaded : State) (k : State → Result) (hw : wellFormed ins = true)
    (hg : stackGuard ins s = if loaded.sp = 0xFF#8 then some 255 else none)
    (hk : stackGuard ins s = none → HandlerAnswers ins s (k (loaded.setReg 7 (loaded.sp + 1)))) :
    HandlerAnswers ins s (withIncSp s loaded k) := by
  rcases withIncSp_cases s loaded k with ⟨h0, h⟩ | ⟨h0, h⟩ <;> rw [h]
  · exact hk (hg.trans (if_neg h0))
  · exact .inr (.inl ⟨hw, 255, hg.trans (if_pos h0), rfl⟩)

/-- What POP's guard looks at: the stack pointer after the load. -/
theorem setReg_names_sp (a : Byte) (i : RegIx) (s : State) (v : Byte) (h : Names a i) :
    (s.setReg i v).sp = if a = 7#8 then v else s.reg 7 := by
  by_cases hi : i = 7
  · subst hi
    rw [if_pos (show a = 7#8 from BitVec.eq_of_toNat_eq h)]
    simp [State.sp_eq]
  · rw [if_neg (by rintro rfl; exact hi (Fin.ext h.symm))]
    simp [State.sp_eq, Ne.symm hi]

/-- Every instruction answers as a declared, undispatched one or as a dispatched one. -/
theorem exec_answers (i : Instr) (s : State) :
    (opcode i ∉ dispatchSet ∧ wellFormed i = true ∧ exec i s = raiseIllegal (opcode i) s) ∨
      (opcode i ∈ dispatchSet ∧ HandlerAnswers i s (exec i s)) := by
  cases i
  case hlt => exact .inr ⟨by simp [opcode, dispatchSet], .inr (.inr ⟨rfl, rfl, _, rfl, fun _ => rfl, .inr ⟨rfl, rfl⟩⟩)⟩
  case ret =>
    refine .inr ⟨by simp [opcode, dispatchSet], ?_⟩
    rw [exec, execRet]
    exact .ofIncSp .ret s s _ rfl rfl fun hg => .completes .ret s _ rfl hg rfl (by simp [opcode, setsPc])
  case push a =>
    refine .inr ⟨by simp [opcode, dispatchSet], ?_⟩
    rw [exec, execPush]
    exact .ofReg (.push a) s a _ rfl fun i _ hw =>
      .ofDecSp (.push a) s _ hw rfl fun hg => .completes (.push a) s _ hw hg rfl fun _ => rfl
  case call a =>
    refine .inr ⟨by simp [opcode, dispatchSet], ?_⟩
    rw [exec, execCall]
    exact .ofReg (.call a) s a _ rfl fun i _ hw =>
      .ofDecSp (.call a) s _ hw rfl fun hg => .completes (.call a) s _ hw hg rfl (by simp [opcode, setsPc])
  case pop a =>
    refine .inr ⟨by simp [opcode, dispatchSet], ?_⟩
    rw [exec, execPop]
    exact .ofReg (.pop a) s a _ rfl fun i hi hw =>
      .ofIncSp (.pop a) s _ _ hw (by rw [setReg_names_sp a i s _ hi]; rfl) fun hg =>
        .completes (.pop a) s _ hw hg rfl fun _ => rfl
  case jmp a =>
    refine .inr ⟨by simp [opcode, dispatchSet], ?_⟩
    rw [exec, execJmp]
    exact .ofReg (.jmp a) s a _ rfl fun i _ hw => .completes (.jmp a) s _ hw rfl rfl (by simp [opcode, setsPc])
  case jeq a =>
    refine .inr ⟨by simp [opcode, dispatchSet], ?_⟩
    rw [exec, execJeq]
    exact .ofReg (.jeq a) s a _ rfl fun i _ hw => .completes (.jeq a) s _ hw rfl (by unfold branchTo; split <;> rfl)
      (by simp [opcode, setsPc])
  case jne a =>
    refine .inr ⟨by simp [opcode, dispatchSet], ?_⟩
    rw [exec, execJne]
    exact .ofReg (.jne a) s a _ rfl fun i _ hw => .completes (.jne a) s _ hw rfl (by unfold branchTo; split <;> rfl)
      (by simp [opcode, setsPc])
  case prn a =>
    refine .inr ⟨by simp [opcode, dispatchSet], ?_⟩
    rw [exec, execPrn]
    exact .ofReg (.prn a) s a _ rfl fun i _ hw => .completes (.prn a) s _ hw rfl rfl fun _ => rfl
  case inc a =>
    refine .inr ⟨by simp [opcode, dispatchSet], ?_⟩
    rw [exec, execInc]
    exact .ofReg (.inc a) s a _ rfl fun i _ hw => .completes (.inc a) s _ hw rfl rfl fun _ => rfl
  case dec a =>
    refine .inr ⟨by simp [opcode, dispatchSet], ?_⟩
    rw [exec, execDec]
    exact .ofReg (.dec a) s a _ rfl fun i _ hw => .completes (.dec a) s _ hw rfl rfl fun _ => rfl
  case ldi a imm =>
    refine .inr ⟨by simp [opcode, dispatchSet], ?_⟩
    rw [exec, execLdi]
    exact .ofReg (.ldi a imm) s a _ rfl fun i _ hw => .completes (.ldi a imm) s _ hw rfl rfl fun _ => rfl
  case add a b =>
    refine .inr ⟨by simp [opcode, dispatchSet], ?_⟩
    rw [exec, execAdd]
    exact .ofRegs (.add a b) s a b _ rfl fun i j hw => .completes (.add a b) s _ hw rfl rfl fun _ => rfl
  case sub a b =>
    refine .inr ⟨by simp [opcode, dispatchSet], ?_⟩
    rw [exec, execSub]
    exact .ofRegs (.sub a b) s a b _ rfl fun i j hw => .completes (.sub a b) s _ hw rfl rfl fun _ => rfl
  case mul a b =>
    refine .inr ⟨by simp [opcode, dispatchSet], ?_⟩
    rw [exec, execMul]
    exact .ofRegs (.mul a b) s a b _ rfl fun i j hw => .completes (.mul a b) s _ hw rfl rfl fun _ => rfl
  case cmp a b =>
    refine .inr ⟨by simp [opcode, dispatchSet], ?_⟩
    rw [exec, execCmp]
    exact .ofRegs (.cmp a b) s a b _ rfl fun i j hw => .completes (.cmp a b) s _ hw rfl rfl fun _ => rfl
  all_goals exact .inl ⟨by simp [opcode, dispatchSet], rfl, rfl⟩

/-- The next state is one a fault leaves. -/
def Stopped (s t : State) : Prop := ∃ cause op detail, t = s.stopped cause op detail

theorem withReg_next (v : Byte) (s t : State) (k : RegIx → Result) (h : withReg v s k = .next t) :
    (∃ i, Names v i ∧ k i = .next t) ∨ Stopped s t := by
  rcases withReg_cases v s k with ⟨i, hi, h'⟩ | ⟨-, h'⟩ <;> rw [h'] at h
  · exact .inl ⟨i, hi, h⟩
  · cases h; exact .inr ⟨_, _, _, rfl⟩

theorem withRegs_next (a b : Byte) (s t : State) (k : RegIx → RegIx → Result) (h : withRegs a b s k = .next t) :
    (∃ i j, Names a i ∧ Names b j ∧ k i j = .next t) ∨ Stopped s t := by
  rcases withReg_next a s t _ h with ⟨i, hi, h⟩ | h
  · rcases withReg_next b s t _ h with ⟨j, hj, h⟩ | h
    · exact .inl ⟨i, j, hi, hj, h⟩
    · exact .inr h
  · exact .inr h

theorem withDecSp_next (s t : State) (k : State → Result) (h : withDecSp s k = .next t) :
    (s.sp ≠ 0x00#8 ∧ k (s.setReg 7 (s.sp - 1)) = .next t) ∨ Stopped s t := by
  rcases withDecSp_cases s k with ⟨h0, h'⟩ | ⟨-, h'⟩ <;> rw [h'] at h
  · exact .inl ⟨h0, h⟩
  · cases h; exact .inr ⟨_, _, _, rfl⟩

theorem withIncSp_next (s loaded t : State) (k : State → Result) (h : withIncSp s loaded k = .next t) :
    (loaded.sp ≠ 0xFF#8 ∧ k (loaded.setReg 7 (loaded.sp + 1)) = .next t) ∨ Stopped s t := by
  rcases withIncSp_cases s loaded k with ⟨h0, h'⟩ | ⟨-, h'⟩ <;> rw [h'] at h
  · exact .inl ⟨h0, h⟩
  · cases h; exact .inr ⟨_, _, _, rfl⟩

/-- Up to pc, what the completed handler of an instruction makes of the state; an undispatched one never completes. -/
def HandlerLeaves (i : Instr) (s h : State) : Prop :=
  match i with
  | .hlt => h = s.setStatus .halted
  | .ret => h = s.setReg 7 (s.sp + 1)
  | .push a => ∃ j, Names a j ∧ h = (s.setReg 7 (s.sp - 1)).memWrite (s.sp - 1) ((s.setReg 7 (s.sp - 1)).reg j)
  | .pop a => ∃ j, Names a j ∧ h = (s.setReg j (s.memRead s.sp)).setReg 7 ((s.setReg j (s.memRead s.sp)).sp + 1)
  | .call _ => h = (s.setReg 7 (s.sp - 1)).memWrite (s.sp - 1) (returnAddress s)
  | .prn a => ∃ j, Names a j ∧ h = s.emit (s.reg j)
  | .jmp _ => h = s
  | .jeq _ => h = s
  | .jne _ => h = s
  | .inc a => ∃ j v, Names a j ∧ h = s.setReg j v
  | .dec a => ∃ j v, Names a j ∧ h = s.setReg j v
  | .ldi a _ => ∃ j v, Names a j ∧ h = s.setReg j v
  | .add a _ => ∃ j v, Names a j ∧ h = s.setReg j v
  | .sub a _ => ∃ j v, Names a j ∧ h = s.setReg j v
  | .mul a _ => ∃ j v, Names a j ∧ h = s.setReg j v
  | .cmp a b => ∃ j k, Names a j ∧ Names b k ∧ h = s.setFl (compareFlags (s.reg j) (s.reg k))
  | .nop => False
  | .iret => False
  | .int _ => False
  | .jgt _ => False
  | .jlt _ => False
  | .jle _ => False
  | .jge _ => False
  | .not _ => False
  | .ld _ _ => False
  | .st _ _ => False
  | .div _ _ => False
  | .mod _ _ => False
  | .and _ _ => False
  | .or _ _ => False
  | .xor _ _ => False
  | .shl _ _ => False
  | .shr _ _ => False

/-- A completed instruction's state, with its handler's last assignment of pc put aside. -/
theorem complete_next (i : Instr) (h t : State) (hc : complete i h = .next t) : ∃ p, t = h.setPc p := by
  rw [complete] at hc
  cases hc
  exact finishCycle_cases _ _

theorem branchTo_pc (taken : Bool) (i : RegIx) (s : State) :
    branchTo taken i s = s.setPc (if taken = true then pcOfByte (s.reg i) else s.pc + 2) := by
  cases taken <;> rfl

/-- THE INVERSION OF `exec`: a next state is one a fault leaves, or the handler's with some pc. -/
theorem exec_next (i : Instr) (s t : State) (h : exec i s = .next t) :
    Stopped s t ∨ ∃ h p, HandlerLeaves i s h ∧ t = h.setPc p := by
  cases i
  case hlt =>
    rw [exec, execHlt] at h
    obtain ⟨p, hp⟩ := complete_next _ _ _ h
    exact .inr ⟨_, p, rfl, hp⟩
  case ret =>
    rw [exec, execRet] at h
    rcases withIncSp_next _ _ _ _ h with ⟨-, h⟩ | h
    · obtain ⟨p, hp⟩ := complete_next _ _ _ h
      exact .inr ⟨_, p, rfl, hp⟩
    · exact .inl h
  case push a =>
    rw [exec, execPush] at h
    rcases withReg_next _ _ _ _ h with ⟨j, hj, h⟩ | h
    · rcases withDecSp_next _ _ _ h with ⟨-, h⟩ | h
      · obtain ⟨p, hp⟩ := complete_next _ _ _ h
        rw [State.setReg_sp] at hp
        exact .inr ⟨_, p, ⟨j, hj, rfl⟩, hp⟩
      · exact .inl h
    · exact .inl h
  case pop a =>
    rw [exec, execPop] at h
    rcases withReg_next _ _ _ _ h with ⟨j, hj, h⟩ | h
    · rcases withIncSp_next _ _ _ _ h with ⟨-, h⟩ | h
      · obtain ⟨p, hp⟩ := complete_next _ _ _ h
        exact .inr ⟨_, p, ⟨j, hj, rfl⟩, hp⟩
      · exact .inl h
    · exact .inl h
  case call a =>
    rw [exec, execCall] at h
    rcases withReg_next _ _ _ _ h with ⟨j, hj, h⟩ | h
    · rcases withDecSp_next _ _ _ h with ⟨-, h⟩ | h
      · obtain ⟨p, hp⟩ := complete_next _ _ _ h
        rw [State.setReg_sp] at hp
        exact .inr ⟨_, p, rfl, hp⟩
      · exact .inl h
    · exact .inl h
  case prn a =>
    rw [exec, execPrn] at h
    rcases withReg_next _ _ _ _ h with ⟨j, hj, h⟩ | h
    · obtain ⟨p, hp⟩ := complete_next _ _ _ h
      exact .inr ⟨_, p, ⟨j, hj, rfl⟩, hp⟩
    · exact .inl h
  case jmp a =>
    rw [exec, execJmp] at h
    rcases withReg_next _ _ _ _ h with ⟨j, hj, h⟩ | h
    · obtain ⟨p, hp⟩ := complete_next _ _ _ h
      rw [branchTo_pc] at hp
      exact .inr ⟨s, p, rfl, hp⟩
    · exact .inl h
  case jeq a =>
    rw [exec, execJeq] at h
    rcases withReg_next _ _ _ _ h with ⟨j, hj, h⟩ | h
    · obtain ⟨p, hp⟩ := complete_next _ _ _ h
      rw [branchTo_pc] at hp
      exact .inr ⟨s, p, rfl, hp⟩
    · exact .inl h
  case jne a =>
    rw [exec, execJne] at h
    rcases withReg_next _ _ _ _ h with ⟨j, hj, h⟩ | h
    · obtain ⟨p, hp⟩ := complete_next _ _ _ h
      rw [branchTo_pc] at hp
      exact .inr ⟨s, p, rfl, hp⟩
    · exact .inl h
  case inc a =>
    rw [exec, execInc] at h
    rcases withReg_next _ _ _ _ h with ⟨j, hj, h⟩ | h
    · obtain ⟨p, hp⟩ := complete_next _ _ _ h
      exact .inr ⟨_, p, ⟨j, _, hj, rfl⟩, hp⟩
    · exact .inl h
  case dec a =>
    rw [exec, execDec] at h
    rcases withReg_next _ _ _ _ h with ⟨j, hj, h⟩ | h
    · obtain ⟨p, hp⟩ := complete_next _ _ _ h
      exact .inr ⟨_, p, ⟨j, _, hj, rfl⟩, hp⟩
    · exact .inl h
  case ldi a imm =>
    rw [exec, execLdi] at h
    rcases withReg_next _ _ _ _ h with ⟨j, hj, h⟩ | h
    · obtain ⟨p, hp⟩ := complete_next _ _ _ h
      exact .inr ⟨_, p, ⟨j, _, hj, rfl⟩, hp⟩
    · exact .inl h
  case add a b =>
    rw [exec, execAdd] at h
    rcases withRegs_next _ _ _ _ _ h with ⟨j, k, hj, hk, h⟩ | h
    · obtain ⟨p, hp⟩ := complete_next _ _ _ h
      exact .inr ⟨_, p, ⟨j, _, hj, rfl⟩, hp⟩
    · exact .inl h
  case sub a b =>
    rw [exec, execSub] at h
    rcases withRegs_next _ _ _ _ _ h with ⟨j, k, hj, hk, h⟩ | h
    · obtain ⟨p, hp⟩ := complete_next _ _ _ h
      exact .inr ⟨_, p, ⟨j, _, hj, rfl⟩, hp⟩
    · exact .inl h
  case mul a b =>
    rw [exec, execMul] at h
    rcases withRegs_next _ _ _ _ _ h with ⟨j, k, hj, hk, h⟩ | h
    · obtain ⟨p, hp⟩ := complete_next _ _ _ h
      exact .inr ⟨_, p, ⟨j, _, hj, rfl⟩, hp⟩
    · exact .inl h
  case cmp a b =>
    rw [exec, execCmp] at h
    rcases withRegs_next _ _ _ _ _ h with ⟨j, k, hj, hk, h⟩ | h
    · obtain ⟨p, hp⟩ := complete_next _ _ _ h
      exact .inr ⟨_, p, ⟨j, k, hj, hk, rfl⟩, hp⟩
    · exact .inl h
  all_goals
    cases h
    exact .inl ⟨_, _, _, rfl⟩

/-- A step from a fetchable state, by what its bytes decode to. -/
theorem step_ready (s : State) (h : s.Ready) :
    step s =
      match decode [s.opcodeHere, s.mem.read (s.pc.toNat + 1), s.mem.read (s.pc.toNat + 2)] with
      | .ok i => exec i s
      | .error _ => raiseIllegal s.opcodeHere s := by
  cases hd : decode [s.opcodeHere, s.mem.read (s.pc.toNat + 1), s.mem.read (s.pc.toNat + 2)] <;>
    simp [step, h.1, State.fetch_ok s h.2, Fetched.bytes, hd]

/-- A step that cannot fetch. -/
theorem step_above (s : State) (hr : s.status = .running) (h : 254 ≤ s.pc.toNat) :
    step s = raise .addressOutOfRange (max s.pc.toNat 256) s := by
  simp [step, hr, State.fetch_error s h]

end Sys2Proof.Machine
end

