-- ==== Sys2Proof/Laws/PerInstr.lean ====
section
/-! SUPPORT. A fact about every instruction's encoding, one lemma per constructor: the layout of the opcode byte agrees with
the instruction's length and with the list of those that set pc themselves (spec 30_encoding.md R81, R84, R94). -/

/-- The instructions whose handlers set pc, and the declared jumps, INT and IRET (spec 30_encoding.md R94). -/
def Sys2Proof.Laws.Layout.transfers (i : Sys2Proof.Instr) : Bool :=
  match i with
  | .nop => false
  | .hlt => false
  | .ret => true
  | .iret => true
  | .push _ => false
  | .pop _ => false
  | .prn _ => false
  | .call _ => true
  | .int _ => true
  | .jmp _ => true
  | .jeq _ => true
  | .jne _ => true
  | .jgt _ => true
  | .jlt _ => true
  | .jle _ => true
  | .jge _ => true
  | .inc _ => false
  | .dec _ => false
  | .not _ => false
  | .ldi _ _ => false
  | .ld _ _ => false
  | .st _ _ => false
  | .add _ _ => false
  | .sub _ _ => false
  | .mul _ _ => false
  | .div _ _ => false
  | .mod _ _ => false
  | .cmp _ _ => false
  | .and _ _ => false
  | .or _ _ => false
  | .xor _ _ => false
  | .shl _ _ => false
  | .shr _ _ => false

/-- The length is bits 7:6 plus 1, never 4, and bit 4 marks the control transfers. -/
def Sys2Proof.Laws.Layout.Statement (i : Sys2Proof.Instr) : Prop :=
  (Sys2Proof.encode i).length = Sys2Proof.operandCount (Sys2Proof.opcode i) + 1 ∧
    Sys2Proof.operandCount (Sys2Proof.opcode i) ≤ 2 ∧
    Sys2Proof.setsPc (Sys2Proof.opcode i) = Sys2Proof.Laws.Layout.transfers i

section
open Sys2Proof

theorem Sys2Proof.Laws.Layout.nop : Sys2Proof.Laws.Layout.Statement .nop :=
  ⟨(by decide : 1 = operandCount 0x00#8 + 1), (by decide : operandCount 0x00#8 ≤ 2), (by decide : setsPc 0x00#8 = false)⟩

theorem Sys2Proof.Laws.Layout.hlt : Sys2Proof.Laws.Layout.Statement .hlt :=
  ⟨(by decide : 1 = operandCount 0x01#8 + 1), (by decide : operandCount 0x01#8 ≤ 2), (by decide : setsPc 0x01#8 = false)⟩

theorem Sys2Proof.Laws.Layout.ret : Sys2Proof.Laws.Layout.Statement .ret :=
  ⟨(by decide : 1 = operandCount 0x11#8 + 1), (by decide : operandCount 0x11#8 ≤ 2), (by decide : setsPc 0x11#8 = true)⟩

theorem Sys2Proof.Laws.Layout.iret : Sys2Proof.Laws.Layout.Statement .iret :=
  ⟨(by decide : 1 = operandCount 0x13#8 + 1), (by decide : operandCount 0x13#8 ≤ 2), (by decide : setsPc 0x13#8 = true)⟩

theorem Sys2Proof.Laws.Layout.push (a : Byte) : Sys2Proof.Laws.Layout.Statement (.push a) :=
  ⟨(by decide : 2 = operandCount 0x45#8 + 1), (by decide : operandCount 0x45#8 ≤ 2), (by decide : setsPc 0x45#8 = false)⟩

theorem Sys2Proof.Laws.Layout.pop (a : Byte) : Sys2Proof.Laws.Layout.Statement (.pop a) :=
  ⟨(by decide : 2 = operandCount 0x46#8 + 1), (by decide : operandCount 0x46#8 ≤ 2), (by decide : setsPc 0x46#8 = false)⟩

theorem Sys2Proof.Laws.Layout.prn (a : Byte) : Sys2Proof.Laws.Layout.Statement (.prn a) :=
  ⟨(by decide : 2 = operandCount 0x47#8 + 1), (by decide : operandCount 0x47#8 ≤ 2), (by decide : setsPc 0x47#8 = false)⟩

theorem Sys2Proof.Laws.Layout.call (a : Byte) : Sys2Proof.Laws.Layout.Statement (.call a) :=
  ⟨(by decide : 2 = operandCount 0x50#8 + 1), (by decide : operandCount 0x50#8 ≤ 2), (by decide : setsPc 0x50#8 = true)⟩

theorem Sys2Proof.Laws.Layout.int (a : Byte) : Sys2Proof.Laws.Layout.Statement (.int a) :=
  ⟨(by decide : 2 = operandCount 0x52#8 + 1), (by decide : operandCount 0x52#8 ≤ 2), (by decide : setsPc 0x52#8 = true)⟩

theorem Sys2Proof.Laws.Layout.jmp (a : Byte) : Sys2Proof.Laws.Layout.Statement (.jmp a) :=
  ⟨(by decide : 2 = operandCount 0x54#8 + 1), (by decide : operandCount 0x54#8 ≤ 2), (by decide : setsPc 0x54#8 = true)⟩

theorem Sys2Proof.Laws.Layout.jeq (a : Byte) : Sys2Proof.Laws.Layout.Statement (.jeq a) :=
  ⟨(by decide : 2 = operandCount 0x55#8 + 1), (by decide : operandCount 0x55#8 ≤ 2), (by decide : setsPc 0x55#8 = true)⟩

theorem Sys2Proof.Laws.Layout.jne (a : Byte) : Sys2Proof.Laws.Layout.Statement (.jne a) :=
  ⟨(by decide : 2 = operandCount 0x56#8 + 1), (by decide : operandCount 0x56#8 ≤ 2), (by decide : setsPc 0x56#8 = true)⟩

theorem Sys2Proof.Laws.Layout.jgt (a : Byte) : Sys2Proof.Laws.Layout.Statement (.jgt a) :=
  ⟨(by decide : 2 = operandCount 0x57#8 + 1), (by decide : operandCount 0x57#8 ≤ 2), (by decide : setsPc 0x57#8 = true)⟩

theorem Sys2Proof.Laws.Layout.jlt (a : Byte) : Sys2Proof.Laws.Layout.Statement (.jlt a) :=
  ⟨(by decide : 2 = operandCount 0x58#8 + 1), (by decide : operandCount 0x58#8 ≤ 2), (by decide : setsPc 0x58#8 = true)⟩

theorem Sys2Proof.Laws.Layout.jle (a : Byte) : Sys2Proof.Laws.Layout.Statement (.jle a) :=
  ⟨(by decide : 2 = operandCount 0x59#8 + 1), (by decide : operandCount 0x59#8 ≤ 2), (by decide : setsPc 0x59#8 = true)⟩

theorem Sys2Proof.Laws.Layout.jge (a : Byte) : Sys2Proof.Laws.Layout.Statement (.jge a) :=
  ⟨(by decide : 2 = operandCount 0x5A#8 + 1), (by decide : operandCount 0x5A#8 ≤ 2), (by decide : setsPc 0x5A#8 = true)⟩

theorem Sys2Proof.Laws.Layout.inc (a : Byte) : Sys2Proof.Laws.Layout.Statement (.inc a) :=
  ⟨(by decide : 2 = operandCount 0x65#8 + 1), (by decide : operandCount 0x65#8 ≤ 2), (by decide : setsPc 0x65#8 = false)⟩

theorem Sys2Proof.Laws.Layout.dec (a : Byte) : Sys2Proof.Laws.Layout.Statement (.dec a) :=
  ⟨(by decide : 2 = operandCount 0x66#8 + 1), (by decide : operandCount 0x66#8 ≤ 2), (by decide : setsPc 0x66#8 = false)⟩

theorem Sys2Proof.Laws.Layout.not (a : Byte) : Sys2Proof.Laws.Layout.Statement (.not a) :=
  ⟨(by decide : 2 = operandCount 0x69#8 + 1), (by decide : operandCount 0x69#8 ≤ 2), (by decide : setsPc 0x69#8 = false)⟩

theorem Sys2Proof.Laws.Layout.ldi (a b : Byte) : Sys2Proof.Laws.Layout.Statement (.ldi a b) :=
  ⟨(by decide : 3 = operandCount 0x82#8 + 1), (by decide : operandCount 0x82#8 ≤ 2), (by decide : setsPc 0x82#8 = false)⟩

theorem Sys2Proof.Laws.Layout.ld (a b : Byte) : Sys2Proof.Laws.Layout.Statement (.ld a b) :=
  ⟨(by decide : 3 = operandCount 0x83#8 + 1), (by decide : operandCount 0x83#8 ≤ 2), (by decide : setsPc 0x83#8 = false)⟩

theorem Sys2Proof.Laws.Layout.st (a b : Byte) : Sys2Proof.Laws.Layout.Statement (.st a b) :=
  ⟨(by decide : 3 = operandCount 0x84#8 + 1), (by decide : operandCount 0x84#8 ≤ 2), (by decide : setsPc 0x84#8 = false)⟩

theorem Sys2Proof.Laws.Layout.add (a b : Byte) : Sys2Proof.Laws.Layout.Statement (.add a b) :=
  ⟨(by decide : 3 = operandCount 0xA0#8 + 1), (by decide : operandCount 0xA0#8 ≤ 2), (by decide : setsPc 0xA0#8 = false)⟩

theorem Sys2Proof.Laws.Layout.sub (a b : Byte) : Sys2Proof.Laws.Layout.Statement (.sub a b) :=
  ⟨(by decide : 3 = operandCount 0xA1#8 + 1), (by decide : operandCount 0xA1#8 ≤ 2), (by decide : setsPc 0xA1#8 = false)⟩

theorem Sys2Proof.Laws.Layout.mul (a b : Byte) : Sys2Proof.Laws.Layout.Statement (.mul a b) :=
  ⟨(by decide : 3 = operandCount 0xA2#8 + 1), (by decide : operandCount 0xA2#8 ≤ 2), (by decide : setsPc 0xA2#8 = false)⟩

theorem Sys2Proof.Laws.Layout.div (a b : Byte) : Sys2Proof.Laws.Layout.Statement (.div a b) :=
  ⟨(by decide : 3 = operandCount 0xA3#8 + 1), (by decide : operandCount 0xA3#8 ≤ 2), (by decide : setsPc 0xA3#8 = false)⟩

theorem Sys2Proof.Laws.Layout.mod (a b : Byte) : Sys2Proof.Laws.Layout.Statement (.mod a b) :=
  ⟨(by decide : 3 = operandCount 0xA4#8 + 1), (by decide : operandCount 0xA4#8 ≤ 2), (by decide : setsPc 0xA4#8 = false)⟩

theorem Sys2Proof.Laws.Layout.cmp (a b : Byte) : Sys2Proof.Laws.Layout.Statement (.cmp a b) :=
  ⟨(by decide : 3 = operandCount 0xA7#8 + 1), (by decide : operandCount 0xA7#8 ≤ 2), (by decide : setsPc 0xA7#8 = false)⟩

theorem Sys2Proof.Laws.Layout.and (a b : Byte) : Sys2Proof.Laws.Layout.Statement (.and a b) :=
  ⟨(by decide : 3 = operandCount 0xA8#8 + 1), (by decide : operandCount 0xA8#8 ≤ 2), (by decide : setsPc 0xA8#8 = false)⟩

theorem Sys2Proof.Laws.Layout.or (a b : Byte) : Sys2Proof.Laws.Layout.Statement (.or a b) :=
  ⟨(by decide : 3 = operandCount 0xAA#8 + 1), (by decide : operandCount 0xAA#8 ≤ 2), (by decide : setsPc 0xAA#8 = false)⟩

theorem Sys2Proof.Laws.Layout.xor (a b : Byte) : Sys2Proof.Laws.Layout.Statement (.xor a b) :=
  ⟨(by decide : 3 = operandCount 0xAB#8 + 1), (by decide : operandCount 0xAB#8 ≤ 2), (by decide : setsPc 0xAB#8 = false)⟩

theorem Sys2Proof.Laws.Layout.shl (a b : Byte) : Sys2Proof.Laws.Layout.Statement (.shl a b) :=
  ⟨(by decide : 3 = operandCount 0xAC#8 + 1), (by decide : operandCount 0xAC#8 ≤ 2), (by decide : setsPc 0xAC#8 = false)⟩

theorem Sys2Proof.Laws.Layout.shr (a b : Byte) : Sys2Proof.Laws.Layout.Statement (.shr a b) :=
  ⟨(by decide : 3 = operandCount 0xAD#8 + 1), (by decide : operandCount 0xAD#8 ≤ 2), (by decide : setsPc 0xAD#8 = false)⟩

end
end

