-- ==== Sys2Proof/Tests/Slice0.lean ====
section
/-! SUPPORT. The model's own tests. Expected results are those of the spec's vectors (95_test_vectors.md, named V<n> or S<n>
in the comments) or worked by hand from the rule named; and for each statement with hypotheses a witness that meets them. -/

namespace Sys2Proof.Tests

open Sys2Proof Sys2Proof.Machine

/-- The reset state with pc moved, bytes placed there and some registers set. -/
def start (pc : PcWord) (bytes : List Byte) (regs : List (RegIx × Byte)) : State :=
  regs.foldl (fun s r => s.setReg r.1 r.2) { State.reset with pc := pc, mem := placeBytes [] pc.toNat bytes }

/-- A next state that passes a check. -/
def gives (r : Result) (p : State → Bool) : Bool :=
  match r with
  | .next t => p t
  | .fault _ => false
  | .refused _ => false

/-- The status after a fault (60_exceptions.md R236). -/
def faultedWith (cause : FaultCause) (op : Option Byte) (pc : PcWord) (detail : Nat) : RunStatus :=
  .faulted { cause := cause, opcode := op, pc := pc, detail := some detail }

/-! Decoding: a word for every constructor, written out from the tables of 30_encoding.md R90 and R91. -/

theorem test_decode_words_without_operands :
    decode [0b00000000#8] = .ok .nop ∧
    decode [0b00000001#8] = .ok .hlt ∧
    decode [0b00010001#8] = .ok .ret ∧
    decode [0b00010011#8] = .ok .iret := by
  refine ⟨rfl, rfl, rfl, rfl⟩

theorem test_decode_words_with_one_operand :
    decode [0b01000101#8, 0b00000101#8] = .ok (.push 5#8) ∧
    decode [0b01000110#8, 0b10000001#8] = .ok (.pop 129#8) ∧
    decode [0b01000111#8, 0b00000111#8] = .ok (.prn 7#8) ∧
    decode [0b01010000#8, 0b00000101#8] = .ok (.call 5#8) ∧
    decode [0b01010010#8, 0b10000001#8] = .ok (.int 129#8) ∧
    decode [0b01010100#8, 0b00000111#8] = .ok (.jmp 7#8) ∧
    decode [0b01010101#8, 0b00000101#8] = .ok (.jeq 5#8) ∧
    decode [0b01010110#8, 0b10000001#8] = .ok (.jne 129#8) ∧
    decode [0b01010111#8, 0b00000111#8] = .ok (.jgt 7#8) ∧
    decode [0b01011000#8, 0b00000101#8] = .ok (.jlt 5#8) ∧
    decode [0b01011001#8, 0b10000001#8] = .ok (.jle 129#8) ∧
    decode [0b01011010#8, 0b00000111#8] = .ok (.jge 7#8) ∧
    decode [0b01100101#8, 0b00000101#8] = .ok (.inc 5#8) ∧
    decode [0b01100110#8, 0b10000001#8] = .ok (.dec 129#8) ∧
    decode [0b01101001#8, 0b00000111#8] = .ok (.not 7#8) := by
  refine ⟨rfl, rfl, rfl, rfl, rfl, rfl, rfl, rfl, rfl, rfl, rfl, rfl, rfl, rfl, rfl⟩

theorem test_decode_words_with_two_operands :
    decode [0b10000010#8, 0b00000101#8, 0b11110000#8] = .ok (.ldi 5#8 240#8) ∧
    decode [0b10000011#8, 0b10000001#8, 0b00000011#8] = .ok (.ld 129#8 3#8) ∧
    decode [0b10000100#8, 0b00000111#8, 0b01010101#8] = .ok (.st 7#8 85#8) ∧
    decode [0b10100000#8, 0b00000101#8, 0b11110000#8] = .ok (.add 5#8 240#8) ∧
    decode [0b10100001#8, 0b10000001#8, 0b00000011#8] = .ok (.sub 129#8 3#8) ∧
    decode [0b10100010#8, 0b00000111#8, 0b01010101#8] = .ok (.mul 7#8 85#8) ∧
    decode [0b10100011#8, 0b00000101#8, 0b11110000#8] = .ok (.div 5#8 240#8) ∧
    decode [0b10100100#8, 0b10000001#8, 0b00000011#8] = .ok (.mod 129#8 3#8) ∧
    decode [0b10100111#8, 0b00000111#8, 0b01010101#8] = .ok (.cmp 7#8 85#8) ∧
    decode [0b10101000#8, 0b00000101#8, 0b11110000#8] = .ok (.and 5#8 240#8) ∧
    decode [0b10101010#8, 0b10000001#8, 0b00000011#8] = .ok (.or 129#8 3#8) ∧
    decode [0b10101011#8, 0b00000111#8, 0b01010101#8] = .ok (.xor 7#8 85#8) ∧
    decode [0b10101100#8, 0b00000101#8, 0b11110000#8] = .ok (.shl 5#8 240#8) ∧
    decode [0b10101101#8, 0b10000001#8, 0b00000011#8] = .ok (.shr 129#8 3#8) := by
  refine ⟨rfl, rfl, rfl, rfl, rfl, rfl, rfl, rfl, rfl, rfl, rfl, rfl, rfl, rfl⟩

/-- R92: the complete set of bytes that raise no IllegalInstruction has sixteen members; 0x48 and 0xC0 are not among them,
and 223 bytes have no row at all. -/
theorem test_dispatch_set :
    dispatchSet.length = 16 ∧ 0x48#8 ∉ dispatchSet ∧ 0xC0#8 ∉ dispatchSet ∧
      ((List.range 256).filter fun n => (opcodeForm (BitVec.ofNat 8 n)).isNone).length = 223 := by decide +kernel

theorem test_decode_truncated :
    decode [] = .error .truncated ∧ decode [0x82#8, 0x00#8] = .error .truncated ∧ decode [0x45#8] = .error .truncated := by
  refine ⟨rfl, rfl, rfl⟩

/-- Table numbering: the first byte is bits 7..0; bits above the row's are 0. -/
theorem test_decodeTableWord :
    decodeTableWord 24 0x080082 = some (.ldi 0#8 8#8) ∧ decodeTableWord 8 0xA0 = some (.add 0#8 0#8) ∧
      decodeTableWord 8 0x48 = none := by
  refine ⟨rfl, rfl, rfl⟩

/-- The assembly names of 30_encoding.md R90 and R91 reach a declared opcode through its byte. -/
theorem test_mnemonic :
    ((decode [0x13#8]).toOption.map mnemonic, (decode [0xA7#8, 0#8, 1#8]).toOption.map mnemonic) =
      (some "IRET", some "CMP") := by decide

/-- An ill-formed term for each register operand that is checked, and well-formed boundary terms (10_state.md R25). -/
theorem test_wellFormed_smoke :
    wellFormed (.push 8#8) = false ∧ wellFormed (.pop 255#8) = false ∧ wellFormed (.prn 8#8) = false ∧
      wellFormed (.call 8#8) = false ∧ wellFormed (.jmp 8#8) = false ∧ wellFormed (.jeq 9#8) = false ∧
      wellFormed (.jne 8#8) = false ∧ wellFormed (.inc 9#8) = false ∧ wellFormed (.dec 8#8) = false ∧
      wellFormed (.ldi 8#8 1#8) = false ∧ wellFormed (.add 8#8 0#8) = false ∧ wellFormed (.add 0#8 8#8) = false ∧
      wellFormed (.sub 8#8 0#8) = false ∧ wellFormed (.sub 0#8 8#8) = false ∧ wellFormed (.mul 8#8 0#8) = false ∧
      wellFormed (.mul 0#8 8#8) = false ∧ wellFormed (.cmp 8#8 0#8) = false ∧ wellFormed (.cmp 0#8 9#8) = false ∧
      wellFormed (.ldi 7#8 255#8) = true ∧ wellFormed (.cmp 7#8 7#8) = true ∧ wellFormed (.and 9#8 9#8) = true := by
  decide

/-! One step each, at most two for an instruction. -/

/-- V1. -/
theorem test_add_wraps :
    gives (step (start 6 [0xA0#8, 0x00#8, 0x01#8] [(0, 200#8), (1, 100#8)])) (fun t => t.reg 0 == 44#8 && t.reg 1 == 100#8 && t.pc == 9#9 && t.fl == 0#3) = true := by decide

/-- V5: wraps, no guard. -/
theorem test_add_to_stack_pointer :
    gives (step (start 0 [0xA0#8, 0x07#8, 0x00#8] [(7, 244#8), (0, 16#8)])) (fun t => t.reg 7 == 4#8 && t.pc == 3#9) = true := by decide

/-- V6. -/
theorem test_sub_wraps :
    gives (step (start 0 [0xA1#8, 0x02#8, 0x03#8] [(2, 5#8), (3, 7#8)])) (fun t => t.reg 2 == 254#8 && t.reg 3 == 7#8 && t.pc == 3#9) = true := by decide

/-- V8. -/
theorem test_sub_same_register :
    gives (step (start 0 [0xA1#8, 0x04#8, 0x04#8] [(4, 156#8)])) (fun t => t.reg 4 == 0#8) = true := by decide

/-- V11. -/
theorem test_mul_low_byte :
    gives (step (start 0 [0xA2#8, 0x00#8, 0x01#8] [(0, 255#8), (1, 255#8)])) (fun t => t.reg 0 == 1#8 && t.pc == 3#9) = true := by decide

/-- V12. -/
theorem test_mul_squares :
    gives (step (start 0 [0xA2#8, 0x05#8, 0x05#8] [(5, 20#8)])) (fun t => t.reg 5 == 144#8) = true := by decide

/-- V13. -/
theorem test_inc_wraps :
    gives (step (start 10 [0x65#8, 0x04#8] [(4, 255#8)])) (fun t => t.reg 4 == 0#8 && t.pc == 12#9) = true := by decide

/-- V19. -/
theorem test_inc_bad_index :
    gives (step (start 0 [0x65#8, 0x09#8] [])) (fun t => t.status == faultedWith .registerIndexOutOfRange (some 0x65#8) 0#9 9) = true := by decide

/-- V16. -/
theorem test_dec_wraps_stack_pointer :
    gives (step (start 0 [0x66#8, 0x07#8] [(7, 0#8)])) (fun t => t.reg 7 == 255#8 && t.pc == 2#9) = true := by decide

/-- V23. -/
theorem test_cmp_unsigned :
    gives (step (start 0 [0xA7#8, 0x00#8, 0x01#8] [(0, 255#8), (1, 1#8)])) (fun t => t.fl == 0b010#3 && t.pc == 3#9) = true := by decide

/-- V20. -/
theorem test_cmp_less :
    gives (step (start 6 [0xA7#8, 0x00#8, 0x01#8] [(0, 10#8), (1, 20#8)])) (fun t => t.fl == 0b100#3 && t.pc == 9#9) = true := by decide

/-- V26. -/
theorem test_jmp :
    gives (step (start 0x10 [0x54#8, 0x02#8] [(2, 9#8)])) (fun t => t.pc == 9#9) = true := by decide

/-- V30: before any CMP. -/
theorem test_jeq_falls_through :
    gives (step (start 0x10 [0x55#8, 0x02#8] [(2, 48#8)])) (fun t => t.pc == 0x12#9) = true := by decide

/-- V34. -/
theorem test_jeq_bad_index_untaken :
    gives (step (start 0 [0x55#8, 0x09#8] [])) (fun t => t.status == faultedWith .registerIndexOutOfRange (some 0x55#8) 0#9 9 && t.pc == 0#9) = true := by decide

/-- V33. -/
theorem test_jne_taken_before_cmp :
    gives (step (start 0x10 [0x56#8, 0x02#8] [(2, 9#8)])) (fun t => t.pc == 9#9) = true := by decide

/-- V32. -/
theorem test_jne_equal :
    gives (step ((start 0x10 [0x56#8, 0x02#8] [(2, 9#8)]).setFl 0b001#3)) (fun t => t.pc == 0x12#9) = true := by decide

/-- V42. -/
theorem test_push_stack_pointer :
    gives (step (start 0 [0x45#8, 0x07#8] [])) (fun t => t.reg 7 == 0xF3#8 && t.memRead 0xF3#8 == 0xF3#8 && t.pc == 2#9) = true := by decide

/-- V43. -/
theorem test_push_at_zero :
    gives (step (start 3 [0x45#8, 0x00#8] [(7, 0#8)])) (fun t => t.status == faultedWith .stackPointerRange (some 0x45#8) 3#9 0 && t.reg 7 == 0#8 && t.memRead 0xFF#8 == 0#8) = true := by decide

/-- V45. -/
theorem test_pop_stack_pointer :
    gives (step ((start 5 [0x46#8, 0x07#8] [(7, 243#8)]).memWrite 0xF3#8 0x20#8)) (fun t => t.reg 7 == 0x21#8 && t.pc == 7#9) = true := by decide

/-- V44: nothing is loaded. -/
theorem test_pop_at_top :
    gives (step ((start 3 [0x46#8, 0x00#8] [(7, 255#8), (0, 5#8)]).memWrite 0xFF#8 9#8)) (fun t => t.status == faultedWith .stackPointerRange (some 0x46#8) 3#9 255 && t.reg 0 == 5#8 && t.reg 7 == 0xFF#8) = true := by decide

/-- V52: the largest return address. -/
theorem test_call_at_253 :
    gives (step (start 253 [0x50#8, 0x01#8] [(1, 64#8)])) (fun t => t.memRead 0xF3#8 == 0xFF#8 && t.reg 7 == 0xF3#8 && t.pc == 0x40#9) = true := by decide

/-- V47. -/
theorem test_call_stack_pointer :
    gives (step (start 0 [0x50#8, 0x07#8] [])) (fun t => t.reg 7 == 0xF3#8 && t.memRead 0xF3#8 == 2#8 && t.pc == 0xF3#9) = true := by decide

/-- V48. -/
theorem test_ret_on_reset_stack :
    gives (step (start 0 [0x11#8] [])) (fun t => t.pc == 0#9 && t.reg 7 == 0xF5#8 && t.status == .running) = true := by decide

/-- 43 R175's worked example. -/
theorem test_ret_returns :
    gives (step ((start 0x16 [0x11#8] [(7, 243#8)]).memWrite 0xF3#8 8#8)) (fun t => t.pc == 8#9 && t.reg 7 == 0xF4#8) = true := by decide

/-- V62. -/
theorem test_ldi :
    gives (step (start 0 [0x82#8, 0x03#8, 0xFF#8] [])) (fun t => t.reg 3 == 255#8 && t.pc == 3#9) = true := by decide

/-- V74: pc 256 is held. -/
theorem test_ldi_at_253 :
    gives (step (start 253 [0x82#8, 0x00#8, 0x07#8] [])) (fun t => t.reg 0 == 7#8 && t.pc == 256#9) = true := by decide

/-- V65. -/
theorem test_prn_appends :
    gives (step ({ start 0 [0x47#8, 0x01#8] [(1, 255#8)] with out := [8#8] })) (fun t => t.out == [8#8, 255#8] && t.pc == 2#9) = true := by decide

/-- V66. -/
theorem test_prn_bad_index :
    gives (step ({ start 0 [0x47#8, 0x08#8] [] with out := [8#8] })) (fun t => t.out == [8#8] && t.status == faultedWith .registerIndexOutOfRange (some 0x47#8) 0#9 8) = true := by decide

/-- V71. -/
theorem test_hlt_at_253 :
    gives (step (start 253 [0x01#8] [])) (fun t => t.status == .halted && t.pc == 253#9) = true := by decide

/-- V73: the operand fetch faults first. -/
theorem test_hlt_at_255 :
    gives (step (start 255 [0x01#8] [])) (fun t => t.status == faultedWith .addressOutOfRange (some 1#8) 255#9 256) = true := by decide

/-- V74, second step. -/
theorem test_fetch_at_256 :
    gives (step (start 256 [] [])) (fun t => t.status == faultedWith .addressOutOfRange none 256#9 256) = true := by decide

/-- V75: cause 2, not cause 1. -/
theorem test_byte_ff_at_255 :
    gives (step (start 255 [0xFF#8] [])) (fun t => t.status == faultedWith .addressOutOfRange (some 0xFF#8) 255#9 256) = true := by decide

/-- 60 R240's example. -/
theorem test_add_first_index_first :
    gives (step (start 0 [0xA0#8, 0x08#8, 0xC8#8] [])) (fun t => t.status == faultedWith .registerIndexOutOfRange (some 0xA0#8) 0#9 8) = true := by decide

/-- V51. -/
theorem test_index_before_stack_guard :
    gives (step (start 0 [0x45#8, 0x09#8] [(7, 0#8)])) (fun t => t.status == faultedWith .registerIndexOutOfRange (some 0x45#8) 0#9 9) = true := by decide

/-- V76. -/
theorem test_nop_is_illegal :
    gives (step (start 3 [0x00#8] [])) (fun t => t.status == faultedWith .illegalInstruction (some 0#8) 3#9 0) = true := by decide

/-- V78. -/
theorem test_and_operands_not_examined :
    gives (step (start 0 [0xA8#8, 0x09#8, 0x09#8] [])) (fun t => t.status == faultedWith .illegalInstruction (some 0xA8#8) 0#9 0xA8) = true := by decide

/-- V79. -/
theorem test_jgt_is_illegal :
    gives (step ((start 9 [0x57#8, 0x02#8] []).setFl 0b010#3)) (fun t => t.status == faultedWith .illegalInstruction (some 0x57#8) 9#9 0x57 && t.pc == 9#9) = true := by decide

/-- V81. -/
theorem test_iret_is_illegal :
    gives (step (start 0 [0x13#8] [])) (fun t => t.status == faultedWith .illegalInstruction (some 0x13#8) 0#9 0x13 && t.reg 7 == 0xF4#8) = true := by decide

/-- V80. -/
theorem test_pra_is_illegal :
    gives (step (start 0 [0x48#8, 0x00#8] [])) (fun t => t.status == faultedWith .illegalInstruction (some 0x48#8) 0#9 0x48) = true := by decide

/-- S6: the image 0A 02 01. -/
theorem test_source_scenario :
    gives (step (start 0 [0x0A#8, 0x02#8, 0x01#8] [])) (fun t => t.status == faultedWith .illegalInstruction (some 0x0A#8) 0#9 0x0A) = true := by decide

/-- V83. -/
theorem test_empty_image :
    gives (step (State.reset)) (fun t => t.status == faultedWith .illegalInstruction (some 0#8) 0#9 0) = true := by decide

/-- An instruction placed at reset is the next one to run (R271, R276). -/
theorem test_withFetchWord_runs :
    gives (step (State.reset.withFetchWord 24 0x080082)) (fun t => t.reg 0 == 8#8 && t.pc == 3#9) = true := by decide

/-- The other declared opcodes take IllegalInstruction with their own byte (45 R201 to R215). -/
theorem test_declared_bytes :
    ([0xA3#8, 0xA4#8, 0xAA#8, 0xAB#8, 0x69#8, 0xAC#8, 0xAD#8, 0x83#8, 0x84#8, 0x5A#8, 0x58#8, 0x59#8, 0x52#8].all fun b =>
      gives (step (start 0 [b, 0x00#8, 0x01#8] [])) fun t =>
        t == { start 0 [b, 0x00#8, 0x01#8] [] with status := faultedWith .illegalInstruction (some b) 0#9 b.toNat }) =
      true := by decide

/-- V85: an ended state has no step. -/
theorem test_no_step_when_ended :
    step (State.reset.setStatus .halted) = .fault .noStepHalted ∧
      step (State.reset.setStatus (faultedWith .illegalInstruction (some 0#8) 0#9 0)) = .fault .noStepFaulted := by
  refine ⟨rfl, rfl⟩

/-- 20_memory.md R63: the next fetch sees the byte a PUSH stored where it reads (the 1 stored at 2 is HLT). -/
theorem test_store_then_fetch :
    gives (step (start 0 [0x45#8, 0x00#8] [(0, 0x01#8), (7, 3#8)])) (fun t =>
      gives (step t) fun u => u.status == .halted && u.pc == 2#9) = true := by decide

/-- 70 R276: byte k of the image goes to address k; 257 bytes do not load. -/
theorem test_boot :
    ((bootState [0x82#8, 0x00#8, 0x08#8]).map fun s => (s.memRead 0#8, s.memRead 2#8, s.memRead 3#8)) =
      some (0x82#8, 0x08#8, 0x00#8) ∧ bootState (List.replicate 257 0x01#8) = none :=
  ⟨by decide, if_neg (by rw [List.length_replicate]; decide)⟩

/-- The codes of 60 R231. -/
theorem test_cause_codes :
    [FaultCause.illegalInstruction, .addressOutOfRange, .registerIndexOutOfRange, .stackPointerRange,
      .aluContractViolation].map FaultCause.code = [1, 2, 3, 4, 5] := rfl

/-! Witnesses: for every statement with hypotheses, a state and operands that meet them, at the ends of their ranges. -/

/-- A RUNNING state at the last usable pc, with SP 2 and two different registers. -/
def busy : State := start 253 [0x82#8, 0x00#8, 0x07#8] [(0, 1#8), (1, 2#8), (7, 2#8)]

/-- A RUNNING state at pc 250, for statements about two instructions in a row. -/
def early : State := start 250 [] [(0, 1#8), (1, 2#8), (7, 2#8)]

theorem witness_StepRunsDecodedInstruction :
    busy.Ready ∧ decode [busy.opcodeHere, busy.mem.read (busy.pc.toNat + 1), busy.mem.read (busy.pc.toNat + 2)] =
      .ok (.ldi 0#8 7#8) := by
  refine ⟨by decide, rfl⟩

theorem witness_CycleHasOneOfThreeOutcomes :
    busy.status = .running ∧ busy.opcodeHere ∈ dispatchSet ∧ (start 0 [0x01#8] []).opcodeHere = 0x01#8 ∧
      State.reset.opcodeHere ∉ dispatchSet := by decide

/-- A step into each of the four causes; the stack guard at both ends, and where POP R7 has just loaded 255. -/
theorem witness_FaultCausesSayWhatHappened :
    gives (step (start 254 [0x01#8] [])) (fun t => t.status == faultedWith .addressOutOfRange (some 1#8) 254#9 256) = true ∧
      gives (step (start 253 [0xFF#8] [])) (fun t => t.status == faultedWith .illegalInstruction (some 255#8) 253#9 255) =
        true ∧
      gives (step (start 0 [0x65#8, 0x08#8] [])) (fun t =>
        t.status == faultedWith .registerIndexOutOfRange (some 0x65#8) 0#9 8) = true ∧
      gives (step (start 0 [0x11#8] [(7, 255#8)])) (fun t =>
        t.status == faultedWith .stackPointerRange (some 0x11#8) 0#9 255) = true ∧
      gives (step (start 253 [0x50#8, 0x07#8] [(7, 0#8)])) (fun t =>
        t.status == faultedWith .stackPointerRange (some 0x50#8) 253#9 0) = true ∧
      gives (step ((start 0 [0x46#8, 0x07#8] []).memWrite 0xF4#8 0xFF#8)) (fun t =>
        t.status == faultedWith .stackPointerRange (some 0x46#8) 0#9 255) = true := by decide

theorem witness_FetchPastTheTopFaults :
    (start 254 [] []).status = .running ∧ 254 ≤ (start 254 [] []).pc.toNat ∧ (start 255 [] []).pc.toNat ≤ 255 ∧
      256 ≤ (start 256 [] []).pc.toNat ∧ (start 256 [] []).status = .running := by decide

theorem witness_ByteWithoutHandlerFaults :
    State.reset.Ready ∧ State.reset.opcodeHere ∉ dispatchSet ∧ (start 253 [0xFF#8] []).Ready ∧
      (start 253 [0xFF#8] []).opcodeHere ∉ dispatchSet := by decide

theorem witness_EndedStateHasNoStep :
    (State.reset.setStatus .halted).Ended ∧
      (State.reset.setStatus (faultedWith .illegalInstruction none 0#9 0)).Ended ∧ ¬ busy.Ended := by decide

theorem witness_EndedStateStopsByName :
    (State.reset.setStatus .halted).status = .halted ∧
      (State.reset.setStatus (faultedWith .illegalInstruction none 0#9 0)).status =
        faultedWith .illegalInstruction none 0#9 0 ∧
      gives (step busy) (fun t => t.pc == 256#9) = true := by decide

theorem witness_StepKeepsInvariant :
    busy.Inv ∧ gives (step busy) (fun t => t.pc == 256#9) = true ∧ (start 256 [] []).Inv ∧
      gives (step (start 256 [] [])) (fun t => t.pc == 256#9) = true := by decide

theorem witness_LoadedImageBoots :
    (List.replicate 256 0x01#8).length ≤ 256 ∧ 255 < (List.replicate 256 0x01#8).length ∧
      ([] : List Byte).length ≤ 0 ∧ 256 < (List.replicate 257 0x01#8).length := by
  rw [List.length_replicate, List.length_replicate]
  decide

/-- The image 01 (S7) reaches its HALTED state in one step. -/
theorem witness_ReachedStatesSatisfyInvariant :
    ∃ t, ReachedFrom [0x01#8] t ∧ t.status = .halted ∧ t.pc = 0#9 ∧ t.out = [] :=
  ⟨_, ⟨_, 1, rfl, rfl⟩, rfl, rfl, rfl⟩

theorem witness_BadRegisterIndexFaults :
    busy.Ready ∧ firstBadIndex (.add 7#8 8#8) = some 8#8 ∧ firstBadIndex (.jeq 255#8) = some 255#8 ∧
      wellFormed (.push 7#8) = true ∧
      gives (exec (.push 7#8) (start 0 [] [(7, 0#8)])) (fun t =>
        t.status == faultedWith .stackPointerRange (some 0#8) 0#9 0) = true ∧ (start 0 [] [(7, 0#8)]).Ready := by decide

theorem witness_OnlyDestinationsChange :
    gives (exec (.pop 1#8) busy) (fun t => t.reg 1 == busy.memRead 2#8) = true ∧ regByte 0 ∉ destinations (.pop 1#8) ∧
      regByte 7 ∉ destinations (.ldi 0#8 7#8) ∧ regByte 0 ∉ destinations .hlt := by decide

theorem witness_OnlyCmpWritesFlags : gives (exec (.cmp 0#8 7#8) busy) (fun t => t.fl != busy.fl) = true := by decide

theorem witness_OnlyPushAndCallStore :
    gives (exec (.call 0#8) busy) (fun t => t.memRead 1#8 == 255#8) = true ∧
      gives (exec .hlt busy) (fun t => t.status == .halted) = true := by decide

theorem witness_OutputGrowsOnlyByPrn : gives (exec (.prn 7#8) busy) (fun t => t.out == [2#8]) = true := by decide

theorem witness_OtherInstructionsIgnoreFlags :
    (∀ a b, Instr.jmp 0#8 ≠ .cmp a b) ∧ (∀ a, Instr.jmp 0#8 ≠ .jeq a) ∧ (∀ a, Instr.jmp 0#8 ≠ .jne a) ∧
      gives (exec (.jmp 0#8) busy) (fun t => t.pc == 1#9) = true := by
  refine ⟨by simp, by simp, by simp, by decide⟩

theorem witness_PcAdvancesByLength :
    busy.Ready ∧ (opcode (.ldi 0#8 7#8)).getLsbD 4 = false ∧
      gives (exec (.ldi 0#8 7#8) busy) (fun t => t.status == .running) = true := by decide

/-- ADD, SUB, MUL, CMP: every clause's hypotheses, with equal, ordered and out-of-range operands. -/
theorem witness_two_register_statements :
    busy.Ready ∧ Names 0#8 0 ∧ Names 7#8 7 ∧ 7 < (8#8 : Byte).toNat ∧ (7#8 : Byte).toNat ≤ 7 ∧
      (busy.reg 0).toNat < (busy.reg 1).toNat ∧ (busy.reg 1).toNat = (busy.reg 7).toNat := by decide

/-- INC, DEC, LDI, PRN, JMP, JEQ, JNE, and HLT, which has no operand. -/
theorem witness_one_register_statements :
    busy.Ready ∧ Names 0#8 0 ∧ Names 7#8 7 ∧ 7 < (8#8 : Byte).toNat ∧ 7 < (255#8 : Byte).toNat ∧
      busy.fl.getLsbD 0 = false ∧ (busy.setFl 0b001#3).Ready ∧ (busy.setFl 0b001#3).fl.getLsbD 0 = true := by decide

/-- PUSH, CALL: SP at 255 and 1 (the ends where they complete) and at 0. -/
theorem witness_storing_statements :
    (busy.setReg 7 1#8).Ready ∧ (busy.setReg 7 1#8).mem.wf = true ∧ (busy.setReg 7 1#8).reg 7 ≠ 0#8 ∧
      (busy.setReg 7 255#8).reg 7 ≠ 0#8 ∧ Names 7#8 7 ∧ Names 0#8 0 ∧ (7#8 : Byte).toNat ≤ 7 ∧
      (busy.setReg 7 0#8).reg 7 = 0#8 ∧ (busy.setReg 7 0#8).Ready ∧ 7 < (8#8 : Byte).toNat := by decide

/-- POP, RET: SP at 254 and 0 (the ends where they complete) and at 255; register 7 loaded with 254 and 255. -/
theorem witness_loading_statements :
    (busy.setReg 7 254#8).Ready ∧ (busy.setReg 7 254#8).reg 7 ≠ 0xFF#8 ∧ (busy.setReg 7 0#8).reg 7 ≠ 0xFF#8 ∧
      Names 6#8 6 ∧ (6 : RegIx) ≠ 7 ∧ Names 7#8 7 ∧
      (busy.memWrite 2#8 254#8).memRead ((busy.memWrite 2#8 254#8).reg 7) ≠ 0xFF#8 ∧
      (busy.memWrite 2#8 255#8).memRead ((busy.memWrite 2#8 255#8).reg 7) = 0xFF#8 ∧ (busy.memWrite 2#8 255#8).Ready ∧
      (6#8 : Byte).toNat < 7 ∧ (busy.setReg 7 255#8).reg 7 = 0xFF#8 ∧ (busy.setReg 7 255#8).Ready ∧
      7 < (8#8 : Byte).toNat := by decide

/-- The three statements about the declared opcodes need only a state the handler would run in. -/
theorem witness_undispatched_statements : busy.Ready ∧ State.reset.Ready := by decide

/-- `busy` at pc 251 and at pc 247. -/
def busyAt (pc : Nat) : State := busy.setPc (BitVec.ofNat 9 pc)

/-- PUSH at 251, POP at 253. -/
theorem witness_PushThenPopRestores :
    (busyAt 251).status = .running ∧ (busyAt 251).pc.toNat ≤ 251 ∧ (busyAt 251).mem.wf = true ∧ Names 0#8 0 ∧
      Names 1#8 1 ∧ (0 : RegIx) ≠ 7 ∧ (1 : RegIx) ≠ 7 ∧ (0 : RegIx) ≠ 1 ∧ (busyAt 251).reg 7 ≠ 0#8 := by decide

/-- The four instructions at 247, 249, 251 and 253. -/
theorem witness_NestedPushesPopInReverse :
    (busyAt 247).status = .running ∧ (busyAt 247).pc.toNat ≤ 247 ∧ (busyAt 247).mem.wf = true ∧ Names 0#8 0 ∧
      Names 1#8 1 ∧ Names 2#8 2 ∧ Names 3#8 3 ∧ (2 : RegIx) ≠ 3 ∧ (0 : RegIx) ≠ 7 ∧ (1 : RegIx) ≠ 7 ∧
      (2 : RegIx) ≠ 7 ∧ (3 : RegIx) ≠ 7 ∧ 2 ≤ ((busyAt 247).reg 7).toNat := by decide

/-- The state after the CALL is itself one from which RET returns. -/
theorem witness_CallThenRetReturns :
    busy.Ready ∧ busy.mem.wf = true ∧ Names 0#8 0 ∧ busy.reg 7 ≠ 0#8 ∧
      gives (exec (.call 0#8) busy) (fun t => decide t.Ready) = true := by decide

theorem witness_SubAfterAddRestoresRegister :
    early.status = .running ∧ early.pc.toNat ≤ 250 ∧ Names 0#8 0 ∧ Names 7#8 7 ∧ (0 : RegIx) ≠ 7 := by decide

theorem witness_CompareDecidesTheBranch :
    early.status = .running ∧ early.pc.toNat ≤ 250 ∧ Names 0#8 0 ∧ Names 1#8 1 ∧ Names 7#8 7 ∧
      early.reg 0 ≠ early.reg 1 ∧ early.reg 1 = early.reg 7 := by decide

theorem witness_ReadsDetermineMemory :
    Memory.wf [(0, 1#8), (255, 2#8)] = true ∧ Memory.wf ((Memory.write [(255, 2#8)] 0 1#8)) = true ∧
      ∀ a : Nat, a < 256 → Memory.read [(0, 1#8), (255, 2#8)] a = Memory.read (Memory.write [(255, 2#8)] 0 1#8) a :=
  ⟨by decide, by decide, fun _ _ => rfl⟩

theorem witness_RewritingAByteChangesNothing :
    Memory.wf [(0, 1#8), (255, 2#8)] = true ∧ 255 < 256 ∧ Memory.read [(0, 1#8), (255, 2#8)] 255 = 2#8 := by decide

end Sys2Proof.Tests
end

/-! # The frame of an instruction (spec 10_state.md)

Which registers, flags, memory bytes and output an instruction may change, that only the branches read the flags, and how
far pc advances. The frame statements are read off `exec_next`: a fault changes only the status, and `HandlerLeaves` says
what a completed handler did. -/

namespace Sys2Proof.Machine

/-! ## What a fault keeps -/

theorem Stopped.reg {s t : State} (h : Stopped s t) (k : RegIx) : t.reg k = s.reg k := by
  obtain ⟨_, _, _, rfl⟩ := h; rfl

theorem Stopped.fl {s t : State} (h : Stopped s t) : t.fl = s.fl := by
  obtain ⟨_, _, _, rfl⟩ := h; rfl

theorem Stopped.memRead {s t : State} (h : Stopped s t) (c : Byte) : t.memRead c = s.memRead c := by
  obtain ⟨_, _, _, rfl⟩ := h; rfl

theorem Stopped.out {s t : State} (h : Stopped s t) : t.out = s.out := by
  obtain ⟨_, _, _, rfl⟩ := h; rfl

/-! ## Registers -/

/-- The operand byte of register `k` is the only one that names it. -/
theorem ne_of_regByte_ne {a : Byte} {j k : RegIx} (hj : Names a j) (hk : regByte k ≠ a) : k ≠ j := by
  rintro rfl
  exact hk (BitVec.eq_of_toNat_eq (by simp only [regByte, hj, BitVec.toNat_ofNat]; omega))

theorem HandlerLeaves.reg_of_not_destination {i : Instr} {s h : State} {k : RegIx} (hh : HandlerLeaves i s h)
    (hk : regByte k ∉ destinations i) : h.reg k = s.reg k := by
  have sp_names : Names 7#8 7 := rfl
  cases i <;> simp only [HandlerLeaves, destinations, List.mem_cons, List.not_mem_nil, or_false, not_or] at hh hk
  case hlt | jmp | jeq | jne => subst hh; rfl
  case prn => obtain ⟨j, -, rfl⟩ := hh; rfl
  case cmp => obtain ⟨j, l, -, -, rfl⟩ := hh; rfl
  case inc | dec | ldi | add | sub | mul =>
    obtain ⟨j, v, hj, rfl⟩ := hh
    exact State.setReg_reg_other _ _ _ _ (ne_of_regByte_ne hj hk)
  case ret | call =>
    subst hh
    exact State.setReg_reg_other _ _ _ _ (ne_of_regByte_ne sp_names hk)
  case push =>
    obtain ⟨j, -, rfl⟩ := hh
    exact State.setReg_reg_other _ _ _ _ (ne_of_regByte_ne sp_names hk)
  case pop =>
    obtain ⟨j, hj, rfl⟩ := hh
    obtain ⟨hka, hk7⟩ := hk
    rw [State.setReg_reg_other _ _ _ _ (ne_of_regByte_ne sp_names hk7),
      State.setReg_reg_other _ _ _ _ (ne_of_regByte_ne hj hka)]

/-- Settles O16: a fault keeps every register, and a completed handler all but its destinations. -/
theorem onlyDestinationsChange : Obligations.OnlyDestinationsChange := by
  intro i s t k he hk
  rcases exec_next i s t he with hstop | ⟨h, p, hh, rfl⟩
  · exact hstop.reg k
  · exact hh.reg_of_not_destination hk

/-! ## Flags -/

theorem compareFlags_oneBit (p q : Byte) :
    compareFlags p q = 0b100#3 ∨ compareFlags p q = 0b010#3 ∨ compareFlags p q = 0b001#3 := by
  unfold compareFlags
  split
  · exact .inl rfl
  · split
    · exact .inr (.inl rfl)
    · exact .inr (.inr rfl)

/-- CMP is the only handler that writes the flags, and it writes a comparison. -/
theorem HandlerLeaves.fl_eq_or_cmp {i : Instr} {s h : State} (hh : HandlerLeaves i s h) :
    h.fl = s.fl ∨ ∃ a b j k, i = .cmp a b ∧ Names a j ∧ Names b k ∧ h.fl = compareFlags (s.reg j) (s.reg k) := by
  cases i <;> simp only [HandlerLeaves] at hh
  case cmp a b =>
    obtain ⟨j, k, hj, hk, rfl⟩ := hh
    exact .inr ⟨a, b, j, k, rfl, hj, hk, rfl⟩
  case hlt | ret | call | jmp | jeq | jne => subst hh; exact .inl rfl
  case push | pop | prn => obtain ⟨j, -, rfl⟩ := hh; exact .inl rfl
  case inc | dec | ldi | add | sub | mul => obtain ⟨j, v, -, rfl⟩ := hh; exact .inl rfl

/-- Settles O17: a change of fl is a completed CMP's, whose comparison has exactly one bit set. -/
theorem onlyCmpWritesFlags : Obligations.OnlyCmpWritesFlags := by
  intro i s t he hne
  rcases exec_next i s t he with hstop | ⟨h, p, hh, rfl⟩
  · exact absurd hstop.fl hne
  · rcases hh.fl_eq_or_cmp with hfl | ⟨a, b, j, k, rfl, hj, hk, hfl⟩
    · exact absurd hfl hne
    · have ha : a.toNat ≤ 7 := by have := j.isLt; omega
      have hb : b.toNat ≤ 7 := by have := k.isLt; omega
      rw [State.setPc_fl, hfl]
      exact ⟨⟨a, b, rfl, ha, hb⟩, compareFlags_oneBit _ _⟩

/-! ## Memory -/

theorem sameMemoryBut_memWrite (s : State) (c v : Byte) : SameMemoryBut c s (s.memWrite c v) :=
  fun _ hne => State.memRead_memWrite_other s c _ v hne

/-- Only the handlers of PUSH and CALL store, and they store below the stack pointer. -/
theorem HandlerLeaves.memory {i : Instr} {s h : State} (hh : HandlerLeaves i s h) :
    SameMemory s h ∨ ((∃ a, i = .push a ∨ i = .call a) ∧ SameMemoryBut (s.sp - 1) s h) := by
  cases i <;> simp only [HandlerLeaves] at hh
  case push a =>
    obtain ⟨j, -, rfl⟩ := hh
    exact .inr ⟨⟨a, .inl rfl⟩, sameMemoryBut_memWrite _ _ _⟩
  case call a =>
    subst hh
    exact .inr ⟨⟨a, .inr rfl⟩, sameMemoryBut_memWrite _ _ _⟩
  case hlt | ret | jmp | jeq | jne => subst hh; exact .inl fun _ => rfl
  case pop | prn => obtain ⟨j, -, rfl⟩ := hh; exact .inl fun _ => rfl
  case inc | dec | ldi | add | sub | mul => obtain ⟨j, v, -, rfl⟩ := hh; exact .inl fun _ => rfl
  case cmp => obtain ⟨j, k, -, -, rfl⟩ := hh; exact .inl fun _ => rfl

/-- Settles O18: a fault keeps memory, and among the handlers only those of PUSH and CALL store. -/
theorem onlyPushAndCallStore : Obligations.OnlyPushAndCallStore := by
  intro i s t he
  rcases exec_next i s t he with hstop | ⟨h, p, hh, rfl⟩
  · exact .inl hstop.memRead
  · exact hh.memory

/-! ## Output -/

/-- Only the handler of PRN emits, and it emits the register its operand names. -/
theorem HandlerLeaves.out_eq_or_prn {i : Instr} {s h : State} (hh : HandlerLeaves i s h) :
    h.out = s.out ∨ ∃ a k, i = .prn a ∧ Names a k ∧ h.out = s.out ++ [s.reg k] := by
  cases i <;> simp only [HandlerLeaves] at hh
  case prn a =>
    obtain ⟨k, hk, rfl⟩ := hh
    exact .inr ⟨a, k, rfl, hk, rfl⟩
  case hlt | ret | call | jmp | jeq | jne => subst hh; exact .inl rfl
  case push | pop => obtain ⟨j, -, rfl⟩ := hh; exact .inl rfl
  case inc | dec | ldi | add | sub | mul => obtain ⟨j, v, -, rfl⟩ := hh; exact .inl rfl
  case cmp => obtain ⟨j, k, -, -, rfl⟩ := hh; exact .inl rfl

/-- Settles O19: a fault emits nothing, and among the handlers only PRN's does. -/
theorem outputGrowsOnlyByPrn : Obligations.OutputGrowsOnlyByPrn := by
  intro i s t he
  rcases exec_next i s t he with hstop | ⟨h, p, hh, rfl⟩
  · exact .inl hstop.out
  · exact hh.out_eq_or_prn

/-! ## The flags are read by the branches only

Every shared operation commutes with replacing fl, so every handler composed of them does. -/

/-- The same answer with fl replaced in the next state, if there is one. -/
def withFl (f : FlagWord) (r : Result) : Result :=
  match r with
  | .next s => .next (s.setFl f)
  | .fault e => .fault e
  | .refused e => .refused e

theorem finishCycle_setFl (ir : Byte) (h : State) (f : FlagWord) :
    finishCycle ir (h.setFl f) = (finishCycle ir h).setFl f := by
  unfold finishCycle
  rw [State.setFl_status]
  split
  · rfl
  · rfl

theorem complete_setFl {f : FlagWord} {i : Instr} {h h' : State} (hh : h' = h.setFl f) :
    complete i h' = withFl f (complete i h) := by
  rw [hh, complete, finishCycle_setFl]
  rfl

theorem withReg_setFl {f : FlagWord} {v : Byte} {s : State} {k k' : RegIx → Result}
    (hk : ∀ i, k' i = withFl f (k i)) : withReg v (s.setFl f) k' = withFl f (withReg v s k) := by
  unfold withReg
  split
  · exact hk _
  · rfl

theorem withRegs_setFl {f : FlagWord} {a b : Byte} {s : State} {k k' : RegIx → RegIx → Result}
    (hk : ∀ i j, k' i j = withFl f (k i j)) : withRegs a b (s.setFl f) k' = withFl f (withRegs a b s k) :=
  withReg_setFl fun i => withReg_setFl fun j => hk i j

theorem withDecSp_setFl {f : FlagWord} {s : State} {k k' : State → Result}
    (hk : ∀ d d' : State, d' = d.setFl f → k' d' = withFl f (k d)) : withDecSp (s.setFl f) k' = withFl f (withDecSp s k) := by
  rcases withDecSp_cases s k with ⟨h0, h⟩ | ⟨h0, h⟩ <;>
    rcases withDecSp_cases (s.setFl f) k' with ⟨h0', h'⟩ | ⟨h0', h'⟩
  · rw [h, h']; exact hk _ _ rfl
  · exact absurd h0' h0
  · exact absurd h0 h0'
  · rw [h, h']; rfl

theorem withIncSp_setFl {f : FlagWord} {s loaded : State} {k k' : State → Result}
    (hk : ∀ d d' : State, d' = d.setFl f → k' d' = withFl f (k d)) :
    withIncSp (s.setFl f) (loaded.setFl f) k' = withFl f (withIncSp s loaded k) := by
  rcases withIncSp_cases s loaded k with ⟨h0, h⟩ | ⟨h0, h⟩ <;>
    rcases withIncSp_cases (s.setFl f) (loaded.setFl f) k' with ⟨h0', h'⟩ | ⟨h0', h'⟩
  · rw [h, h']; exact hk _ _ rfl
  · exact absurd h0' h0
  · exact absurd h0 h0'
  · rw [h, h']; rfl

/-- An instruction that neither compares nor branches on the flags carries any flags word through unread. -/
theorem exec_setFl (i : Instr) (s : State) (f : FlagWord) (hcmp : ∀ a b, i ≠ .cmp a b) (hjeq : ∀ a, i ≠ .jeq a)
    (hjne : ∀ a, i ≠ .jne a) : exec i (s.setFl f) = withFl f (exec i s) := by
  cases i
  case cmp a b => exact absurd rfl (hcmp a b)
  case jeq a => exact absurd rfl (hjeq a)
  case jne a => exact absurd rfl (hjne a)
  case hlt => exact complete_setFl rfl
  case ret =>
    simp only [exec, execRet]
    refine withIncSp_setFl fun d d' hd => complete_setFl ?_
    subst hd; rfl
  case push | call =>
    simp only [exec, execPush, execCall]
    refine withReg_setFl fun j => withDecSp_setFl fun d d' hd => complete_setFl ?_
    subst hd; rfl
  case pop a =>
    simp only [exec, execPop]
    exact withReg_setFl fun j => withIncSp_setFl (loaded := s.setReg j (s.memRead s.sp)) fun d d' hd => complete_setFl hd
  case prn | jmp | inc | dec | ldi =>
    simp only [exec, execPrn, execJmp, execInc, execDec, execLdi]
    exact withReg_setFl fun _ => complete_setFl rfl
  case add | sub | mul =>
    simp only [exec, execAdd, execSub, execMul]
    exact withRegs_setFl fun _ _ => complete_setFl rfl
  all_goals rfl

/-- Settles O20: replacing fl before such an instruction is replacing it after. -/
theorem otherInstructionsIgnoreFlags : Obligations.OtherInstructionsIgnoreFlags := by
  intro i s t f hcmp hjeq hjne he
  calc exec i (s.setFl f)
    _ = withFl f (exec i s) := exec_setFl i s f hcmp hjeq hjne
    _ = withFl f (.next t) := by rw [he]
    _ = .next (t.setFl f) := rfl

/-! ## The advance of pc -/

/-- Every instruction's opcode byte has the layout of spec 30_encoding.md R81. -/
theorem opcode_layout (i : Instr) : Laws.Layout.Statement i := by
  open Laws.Layout in
  cases i
  exacts [nop, hlt, ret, iret, push _, pop _, prn _, call _, int _, jmp _, jeq _, jne _, jgt _, jlt _, jle _, jge _, inc _,
    dec _, not _, ldi _ _, ld _ _, st _ _, add _ _, sub _ _, mul _ _, div _ _, mod _ _, cmp _ _, and _ _, or _ _, xor _ _,
    shl _ _, shr _ _]

theorem operandCount_eq_div (ir : Byte) : operandCount ir = ir.toNat / 64 := by
  have := ir.isLt
  simp only [operandCount, BitVec.extractLsb'_toNat, Nat.shiftRight_eq_div_pow]
  omega

@[simp] theorem finishCycle_status (ir : Byte) (s : State) : (finishCycle ir s).status = s.status := by
  obtain ⟨p, hp⟩ := finishCycle_cases ir s
  rw [hp, State.setPc_status]

/-- A next state that is RUNNING is that of a completed handler, which leaves pc to step 5 unless it sets pc itself. -/
theorem exec_running {i : Instr} {s t : State} (he : exec i s = .next t) (ht : t.status = .running) :
    ∃ h, t = finishCycle (opcode i) h ∧ h.status = .running ∧ (setsPc (opcode i) = false → h.pc = s.pc) := by
  rcases exec_answers i s with ⟨-, -, hr⟩ | ⟨-, ⟨v, -, -, hr⟩ | ⟨-, d, -, hr⟩ | ⟨-, -, h, hr, hpc, -⟩⟩ <;>
    rw [hr] at he <;> cases he
  · cases ht
  · cases ht
  · cases ht
  · exact ⟨h, rfl, (finishCycle_status _ h).symm.trans ht, hpc⟩

/-- Settles O21: the completed handler keeps pc, and step 5 adds the length, which from at most 253 does not wrap. -/
theorem pcAdvancesByLength : Obligations.PcAdvancesByLength := by
  intro i s t hready hbit he ht
  obtain ⟨-, hpc⟩ := hready
  obtain ⟨hlen, hcount, -⟩ := opcode_layout i
  obtain ⟨h, rfl, hs, hkeep⟩ := exec_running he ht
  refine ⟨?_, hlen.trans (by rw [operandCount_eq_div])⟩
  rw [finishCycle_advances _ h hs hbit, State.setPc_pc, hkeep hbit, hlen, BitVec.toNat_add, BitVec.toNat_ofNat]
  omega

end Sys2Proof.Machine

/-! # Rewriting the byte already present (spec 20_memory.md R55) -/

namespace Sys2Proof.Machine

/-- Below the first listed address the byte read is the fill value, which a write does not list; at that address the same
entry is put back; above it the write goes on into the rest. No bound on the address is needed. -/
theorem Memory.write_read_self (m : Memory) (a : Nat) (hw : m.wf = true) : m.write a (m.read a) = m := by
  induction m with
  | nil => simp [Memory.read, Memory.write]
  | cons c rest ih =>
    obtain ⟨k, w⟩ := c
    obtain ⟨-, hwne, hlow, hrest⟩ := (Memory.wf_cons k w rest).1 hw
    rcases lt_trichotomy a k with hlt | rfl | hgt
    · have hfill : Memory.read ((k, w) :: rest) a = Config.memFill :=
        Memory.read_below _ _ (List.forall_mem_cons.2 ⟨hlt, fun c hc => hlt.trans (hlow c hc)⟩)
      simp [hfill, Memory.write, hlt]
    · simp [Memory.read, Memory.write, hwne]
    · simp [Memory.read, Memory.write, hgt.ne, hgt.ne', hgt.not_gt, ih hrest]

/-- Settles O47: `Memory.write_read_self` at an address below 256. -/
theorem rewritingAByteChangesNothing : Obligations.RewritingAByteChangesNothing :=
  fun m a hw _ => Memory.write_read_self m a hw

end Sys2Proof.Machine

/-! # Decoding and encoding (spec 30_encoding.md R80, R84, R86) -/

namespace Sys2Proof

/-- The opcode byte selects the instruction's own row, whose form reads its operand bytes and ignores what follows. -/
theorem decode_encode_append (i : Instr) (rest : List Byte) : decode (encode i ++ rest) = .ok i := by
  cases i <;> rfl

/-- The instruction decoded is one made from a row of the table, and its encoding is that row's opcode byte and the operand
bytes the form took. -/
theorem eq_encode_append_of_decode {bs : List Byte} {i : Instr} (h : decode bs = .ok i) :
    ∃ rest, bs = encode i ++ rest := by
  cases bs with
  | nil => cases h
  | cons ir _ =>
    simp only [decode] at h
    split at h <;> cases h
    next hrow =>
      obtain ⟨hop, hargs⟩ := opcodeForm_f0 ir i hrow
      exact ⟨_, by rw [encode, hop, hargs]; rfl⟩
    next make a rest hrow =>
      obtain ⟨hop, hargs⟩ := opcodeForm_f1 ir make hrow a
      exact ⟨rest, by rw [encode, hop, hargs]; rfl⟩
    next make a b rest hrow =>
      obtain ⟨hop, hargs⟩ := opcodeForm_f2 ir make hrow a b
      exact ⟨rest, by rw [encode, hop, hargs]; rfl⟩

/-- Settles O3: what decodes is headed by its encoding, and an encoding decodes back whatever follows it. -/
theorem decodeAndEncodeAgree : Obligations.DecodeAndEncodeAgree := by
  intro bs i
  constructor
  · exact eq_encode_append_of_decode
  · rintro ⟨rest, rfl⟩
    exact decode_encode_append i rest

end Sys2Proof

/-! # The outcomes of a cycle (spec 40_fetch_decode_dispatch.md)

A step is read off the fetch (`step_above`, `step_ready`) and then off `exec_answers`, which says once what an instruction
can answer. -/

namespace Sys2Proof.Machine

/-- Settles O15: an undispatched instruction takes its fault; a dispatched one takes one of its faults or completes. -/
theorem everyInstructionAnswers : Obligations.EveryInstructionAnswers := by
  intro i s
  rcases exec_answers i s with ⟨-, -, hr⟩ | ⟨-, ⟨v, -, -, hr⟩ | ⟨-, d, -, hr⟩ | ⟨-, -, h, hr, -⟩⟩
  · exact ⟨_, hr.trans (raiseIllegal_eq _ s)⟩
  · exact ⟨_, hr.trans (raise_eq _ _ s)⟩
  · exact ⟨_, hr.trans (raise_eq _ _ s)⟩
  · exact ⟨_, hr⟩

/-- Settles O1: with the bytes known to decode, `step_ready` leaves `exec`. -/
theorem stepRunsDecodedInstruction : Obligations.StepRunsDecodedInstruction := by
  intro s i hready hi
  rw [step_ready s hready, hi]

/-- Settles O8: `step` reads the status first, and answers a stop for either way of having ended. -/
theorem endedStateHasNoStep : Obligations.EndedStateHasNoStep := by
  intro s hended t hstep
  unfold step at hstep
  cases hs : s.status with
  | running => exact hended hs
  | halted => simp [hs] at hstep
  | faulted r => simp [hs] at hstep

/-! ## The three outcomes -/

/-- The instruction at pc has the byte at pc as its opcode. -/
theorem State.Holds.opcode_eq {s : State} {i : Instr} (hi : s.Holds i) : opcode i = s.opcodeHere := by
  obtain ⟨rest, hbytes⟩ := eq_encode_append_of_decode hi
  exact (List.cons.inj hbytes).1.symm

/-- HLT's byte is enough to decode HLT, and step 5 does nothing once the machine is HALTED (R116). -/
theorem step_hlt {s : State} (hready : s.Ready) (hop : s.opcodeHere = 0x01#8) :
    step s = .next { s with status := .halted } := by
  have hi : s.Holds .hlt := by rw [State.Holds, hop]; rfl
  calc step s
    _ = exec .hlt s := stepRunsDecodedInstruction s .hlt hready hi
    _ = .next (finishCycle (opcode .hlt) (s.setStatus .halted)) := rfl
    _ = .next (s.setStatus .halted) := by rw [finishCycle_ended _ _ (by simp)]

/-- An instruction other than HLT, run where it stands: it is dispatched and leaves the machine RUNNING, or a fault is
taken. -/
theorem exec_running_or_stopped {s : State} {i : Instr} (hs : s.status = .running) (hop : opcode i = s.opcodeHere)
    (hat : s.opcodeAtPc = some s.opcodeHere) (hne : i ≠ .hlt) :
    ∃ t, exec i s = .next t ∧ ((t.status = .running ∧ opcode i ∈ dispatchSet) ∨
      ∃ cause detail, t = s.stopped cause s.opcodeAtPc detail) := by
  rcases exec_answers i s with ⟨-, -, hr⟩ | ⟨hmem, ⟨v, -, -, hr⟩ | ⟨-, d, -, hr⟩ | ⟨-, -, h, hr, -, hstatus⟩⟩
  · exact ⟨_, hr.trans (raiseIllegal_eq _ s), .inr ⟨_, _, by rw [hat, hop]⟩⟩
  · exact ⟨_, hr.trans (raise_eq _ _ s), .inr ⟨_, _, rfl⟩⟩
  · exact ⟨_, hr.trans (raise_eq _ _ s), .inr ⟨_, _, rfl⟩⟩
  · have hkept : h.status = s.status := hstatus.resolve_right fun ⟨heq, _⟩ => hne heq
    exact ⟨_, hr, .inl ⟨by rw [finishCycle_status, hkept, hs], hmem⟩⟩

/-- Settles O4: above 253 the fetch faults; up to there HLT's byte halts, a byte without a row faults, and any other
instruction leaves the machine RUNNING or faults. -/
theorem cycleHasOneOfThreeOutcomes : Obligations.CycleHasOneOfThreeOutcomes := by
  intro s hs
  rcases Nat.lt_or_ge 253 s.pc.toNat with habove | hpc
  · exact ⟨_, step_above s hs habove, .inr (.inr ⟨_, _, rfl⟩)⟩
  have hready : s.Ready := ⟨hs, hpc⟩
  have hat := s.opcodeAtPc_ready (hpc.trans (by decide))
  by_cases hhlt : s.opcodeHere = 0x01#8
  · exact ⟨_, step_hlt hready hhlt, .inr (.inl ⟨hhlt, rfl⟩)⟩
  cases hd : decode [s.opcodeHere, s.mem.read (s.pc.toNat + 1), s.mem.read (s.pc.toNat + 2)] with
  | error e =>
    have hstep : step s = raiseIllegal s.opcodeHere s := by rw [step_ready s hready, hd]
    exact ⟨_, hstep.trans (raiseIllegal_eq _ s), .inr (.inr ⟨_, _, by rw [hat]⟩)⟩
  | ok i =>
    have hop : opcode i = s.opcodeHere := State.Holds.opcode_eq hd
    have hne : i ≠ .hlt := by rintro rfl; exact hhlt hop.symm
    obtain ⟨t, hexec, houtcome⟩ := exec_running_or_stopped hs hop hat hne
    refine ⟨t, (stepRunsDecodedInstruction s i hready hd).trans hexec, ?_⟩
    rcases houtcome with ⟨hrun, hmem⟩ | hstop
    · exact .inl ⟨hrun, ⟨hpc, hop ▸ hmem⟩, hhlt⟩
    · exact .inr (.inr hstop)

end Sys2Proof.Machine

/-! # The arithmetic unit (spec 41_alu.md)

An ALU instruction either reports its first bad register operand (`exec_badIndex`) or overwrites one register and lets step 5
advance pc (`complete_setReg`). What is left of each rule is the value, an integer congruence modulo 256 (`aluResult_toNat`). -/

namespace Sys2Proof.Machine

/-! ## A bad register operand -/

theorem firstBadIndex_first {ins : Instr} {v : Byte} {rest : List Byte} (ho : regOperands ins = v :: rest)
    (hv : 7 < v.toNat) : firstBadIndex ins = some v := by
  simp [firstBadIndex, ho, isRegIndex_above v hv]

theorem firstBadIndex_second {ins : Instr} {a b : Byte} {rest : List Byte} (ho : regOperands ins = a :: b :: rest)
    (ha : a.toNat ≤ 7) (hb : 7 < b.toNat) : firstBadIndex ins = some b := by
  have ha' : isRegIndex a = true := isRegIndex_names a ⟨a.toNat, by omega⟩ rfl
  simp [firstBadIndex, ho, ha', isRegIndex_above b hb]

/-- The other answers of `exec` are those of a well-formed instruction, which has no bad operand. -/
theorem exec_badIndex {ins : Instr} {s : State} {v : Byte} (hready : s.Ready) (hbad : firstBadIndex ins = some v) :
    FaultsBadIndex ins s v := by
  have hill : wellFormed ins ≠ true := fun hw => by simp [(firstBadIndex_none ins).2 hw] at hbad
  rcases exec_answers ins s with ⟨-, hw, -⟩ | ⟨-, ⟨w, hw, -, hr⟩ | ⟨hw, -⟩ | ⟨hw, -⟩⟩
  · exact absurd hw hill
  · obtain rfl : w = v := Option.some.inj (hw.symm.trans hbad)
    rw [FaultsBadIndex, hr, raise_eq, s.opcodeAtPc_ready (hready.2.trans (by decide))]
  · exact absurd hw hill
  · exact absurd hw hill

/-- With two register operands, the first is reported before the second (60_exceptions.md R234). -/
theorem exec_badIndex_regs {ins : Instr} {s : State} {a b : Byte} (hready : s.Ready) (ho : regOperands ins = [a, b]) :
    (7 < a.toNat → FaultsBadIndex ins s a) ∧ (a.toNat ≤ 7 → 7 < b.toNat → FaultsBadIndex ins s b) :=
  ⟨fun ha => exec_badIndex hready (firstBadIndex_first ho ha),
    fun ha hb => exec_badIndex hready (firstBadIndex_second ho ha hb)⟩

/-! ## A completed handler that overwrites one register -/

/-- All that changed from `s` to `t` is register `i`, which now holds the number `n`, and pc, which grew by `len`;
the machine is RUNNING. -/
abbrev Overwrites (i : RegIx) (n len : Nat) (s t : State) : Prop :=
  (t.reg i).toNat = n ∧ SameRegsBut i s t ∧
    t.pc.toNat = s.pc.toNat + len ∧ t.fl = s.fl ∧ t.out = s.out ∧ t.status = .running ∧ SameMemory s t

/-- Step 5 of a handler that overwrites a register and leaves pc to it; from at most 253 the advance does not wrap. -/
theorem complete_setReg {ins : Instr} {s : State} {i : RegIx} {v : Byte} (hready : s.Ready)
    (htransfers : Laws.Layout.transfers ins = false) :
    ∃ t, complete ins (s.setReg i v) = .next t ∧ Overwrites i v.toNat (encode ins).length s t := by
  obtain ⟨hs, hpc⟩ := hready
  obtain ⟨hlen, -, hbit⟩ := opcode_layout ins
  rw [htransfers] at hbit
  have hcount := operandCount_eq_div (opcode ins)
  refine ⟨_, congrArg Host.Outcome.next (finishCycle_advances _ (s.setReg i v) hs hbit), ?_, ?_, ?_, rfl, rfl, hs,
    fun _ => rfl⟩
  · simp
  · intro k hk
    simp [hk]
  · rw [State.setPc_pc, State.setReg_pc, hlen, BitVec.toNat_add, BitVec.toNat_ofNat]
    omega

/-- An ALU result depends only on the exact integer modulo 256 (R137). -/
theorem aluResult_toNat {exact : Int} {n : Nat} (h : exact % 256 = (n : Int) % 256) :
    (aluResult exact).toNat = n % 256 := by
  rw [aluResult, BitVec.toNat_ofInt]
  omega

/-- An instruction that computes `exact`, writes it to register `i` and completes. -/
theorem exec_alu {ins : Instr} {s : State} {i : RegIx} {exact : Int} {n : Nat} (hready : s.Ready)
    (htransfers : Laws.Layout.transfers ins = false) (hexec : exec ins s = complete ins (s.setReg i (aluResult exact)))
    (hval : exact % 256 = (n : Int) % 256) :
    ∃ t, exec ins s = .next t ∧ Overwrites i (n % 256) (encode ins).length s t := by
  rw [hexec, ← aluResult_toNat hval]
  exact complete_setReg hready htransfers

/-! ## The five instructions, once their operand bytes name registers -/

theorem exec_add {a b : Byte} {i j : RegIx} (s : State) (ha : Names a i) (hb : Names b j) :
    exec (.add a b) s =
      complete (.add a b) (s.setReg i (aluResult (operandValue (s.reg i) + operandValue (s.reg j)))) := by
  rw [exec, execAdd, withRegs_names a b i j s _ ha hb]

theorem exec_sub {a b : Byte} {i j : RegIx} (s : State) (ha : Names a i) (hb : Names b j) :
    exec (.sub a b) s =
      complete (.sub a b) (s.setReg i (aluResult (operandValue (s.reg i) - operandValue (s.reg j)))) := by
  rw [exec, execSub, withRegs_names a b i j s _ ha hb]

theorem exec_mul {a b : Byte} {i j : RegIx} (s : State) (ha : Names a i) (hb : Names b j) :
    exec (.mul a b) s =
      complete (.mul a b) (s.setReg i (aluResult (operandValue (s.reg i) * operandValue (s.reg j)))) := by
  rw [exec, execMul, withRegs_names a b i j s _ ha hb]

theorem exec_inc {a : Byte} {i : RegIx} (s : State) (ha : Names a i) :
    exec (.inc a) s = complete (.inc a) (s.setReg i (aluResult (operandValue (s.reg i) + 1))) := by
  rw [exec, execInc, withReg_names a i s _ ha]

theorem exec_dec {a : Byte} {i : RegIx} (s : State) (ha : Names a i) :
    exec (.dec a) s = complete (.dec a) (s.setReg i (aluResult (operandValue (s.reg i) - 1))) := by
  rw [exec, execDec, withReg_names a i s _ ha]

/-! ## The statements about each of them -/

/-- Settles O22: the exact sum of two bytes is the natural number the rule reduces. -/
theorem addIsSumModulo256 : Obligations.AddIsSumModulo256 := by
  intro a b s hready
  refine ⟨rfl, fun i j ha hb => ?_, exec_badIndex_regs hready rfl⟩
  exact exec_alu hready rfl (exec_add s ha hb) (by simp [operandValue])

/-- Settles O23: the exact difference, which can be negative, is congruent to the rule's number, which is 256 more. -/
theorem subIsDifferenceModulo256 : Obligations.SubIsDifferenceModulo256 := by
  intro a b s hready
  refine ⟨rfl, fun i j ha hb => ?_, exec_badIndex_regs hready rfl⟩
  have hj := (s.reg j).isLt
  exact exec_alu hready rfl (exec_sub s ha hb) (by simp only [operandValue]; omega)

/-- Settles O24: the exact product of two bytes is the natural number the rule reduces. -/
theorem mulIsLowByteOfProduct : Obligations.MulIsLowByteOfProduct := by
  intro a b s hready
  refine ⟨rfl, fun i j ha hb => ?_, exec_badIndex_regs hready rfl⟩
  exact exec_alu hready rfl (exec_mul s ha hb) (by simp [operandValue])

/-- Settles O25: the register's value plus 1, with no guard for register 7. -/
theorem incAddsOne : Obligations.IncAddsOne := by
  intro a s hready
  refine ⟨rfl, fun i ha => ?_, fun ha => exec_badIndex hready (firstBadIndex_first rfl ha)⟩
  exact exec_alu hready rfl (exec_inc s ha) (by simp [operandValue])

/-- Settles O26: the register's value minus 1 is congruent to its value plus 255, with no guard for register 7. -/
theorem decSubtractsOne : Obligations.DecSubtractsOne := by
  intro a s hready
  refine ⟨rfl, fun i ha => ?_, fun ha => exec_badIndex hready (firstBadIndex_first rfl ha)⟩
  exact exec_alu hready rfl (exec_dec s ha) (by simp only [operandValue]; omega)

/-! ## SUB undoes ADD -/

/-- Settles O44: ADD keeps register j, since it is not i, so SUB takes the same number off again; modulo 256 nothing is lost
(R137). -/
theorem subAfterAddRestoresRegister : Obligations.SubAfterAddRestoresRegister := by
  intro a b i j s hs hpc ha hb hij
  obtain ⟨-, hadd, -⟩ := addIsSumModulo256 a b s ⟨hs, by omega⟩
  obtain ⟨t, htexec, hti, htkeep, htpc, -, -, hts, -⟩ := hadd i j ha hb
  obtain ⟨-, hsub, -⟩ := subIsDifferenceModulo256 a b t ⟨hts, by omega⟩
  obtain ⟨u, huexec, hui, hukeep, -⟩ := hsub i j ha hb
  refine ⟨t, u, htexec, huexec, fun k => ?_⟩
  by_cases hk : k = i
  · subst hk
    have hki := (s.reg k).isLt
    have hkj := (s.reg j).isLt
    rw [hti, htkeep j hij.symm] at hui
    exact BitVec.eq_of_toNat_eq (by omega)
  · exact (hukeep k hk).trans (htkeep k hk)

end Sys2Proof.Machine

/-! # Compare and branch (spec 42_compare_branch.md)

CMP leaves pc to step 5 (`complete_advances`); a branch sets pc itself, so that step 5 keeps it (`complete_branchTo`). What is
left of each rule is the order of the two bytes, or the flag that decides whether the branch is taken. -/

namespace Sys2Proof.Machine

/-! ## What CMP computes, by the unsigned order of the two bytes -/

theorem compareFlags_of_lt {p q : Byte} (h : p.toNat < q.toNat) : compareFlags p q = 0b100#3 := by
  rw [compareFlags, if_pos h]

theorem compareFlags_of_gt {p q : Byte} (h : q.toNat < p.toNat) : compareFlags p q = 0b010#3 := by
  rw [compareFlags, if_neg h.asymm, if_pos h]

theorem compareFlags_of_eq {p q : Byte} (h : p.toNat = q.toNat) : compareFlags p q = 0b001#3 := by
  rw [compareFlags, if_neg h.not_lt, if_neg h.not_gt]

/-! ## The two ways a handler completes -/

/-- Step 5 of a handler that leaves pc to it; from at most 253 the advance does not wrap. -/
theorem complete_advances {ins : Instr} {h : State} (hready : h.Ready) (htransfers : Laws.Layout.transfers ins = false) :
    ∃ p : PcWord, complete ins h = .next (h.setPc p) ∧ p.toNat = h.pc.toNat + (encode ins).length := by
  obtain ⟨hs, hpc⟩ := hready
  obtain ⟨hlen, -, hbit⟩ := opcode_layout ins
  rw [htransfers] at hbit
  have hcount := operandCount_eq_div (opcode ins)
  refine ⟨_, congrArg Host.Outcome.next (finishCycle_advances _ h hs hbit), ?_⟩
  rw [hlen, BitVec.toNat_add, BitVec.toNat_ofNat]
  omega

/-- Widening a byte to pc keeps its value (10_state.md R29). -/
@[simp] theorem pcOfByte_toNat (v : Byte) : (pcOfByte v).toNat = v.toNat := by
  rw [pcOfByte, BitVec.toNat_setWidth]
  omega

/-- A branch sets pc to the register's value or past its own two bytes; step 5 keeps it, and nothing else changes. -/
theorem complete_branchTo {ins : Instr} {s : State} (taken : Bool) (i : RegIx) (hready : s.Ready)
    (htransfers : Laws.Layout.transfers ins = true) :
    ∃ t, complete ins (branchTo taken i s) = .next t ∧
      (taken = true → t.pc.toNat = (s.reg i).toNat) ∧ (taken = false → t.pc.toNat = s.pc.toNat + 2) ∧
      SameRegs s t ∧ t.fl = s.fl ∧ t.out = s.out ∧ t.status = .running ∧ SameMemory s t := by
  obtain ⟨hs, hpc⟩ := hready
  obtain ⟨-, -, hbit⟩ := opcode_layout ins
  have hkeep := finishCycle_setsPc _ (branchTo taken i s) (hbit.trans htransfers)
  rw [branchTo_pc] at hkeep ⊢
  refine ⟨_, congrArg Host.Outcome.next hkeep, ?_, ?_, fun _ => rfl, rfl, rfl, hs, fun _ => rfl⟩
  · rintro rfl
    simp
  · rintro rfl
    have hadd : (s.pc + 2).toNat = (s.pc.toNat + 2) % 2 ^ 9 := BitVec.toNat_add _ _
    simp only [State.setPc_pc, Bool.false_eq_true, if_false, hadd]
    omega

/-! ## The instructions, once their operand bytes name registers -/

theorem exec_cmp {a b : Byte} {i j : RegIx} (s : State) (ha : Names a i) (hb : Names b j) :
    exec (.cmp a b) s = complete (.cmp a b) (s.setFl (compareFlags (s.reg i) (s.reg j))) := by
  rw [exec, execCmp, withRegs_names a b i j s _ ha hb]

theorem exec_jne {a : Byte} {i : RegIx} (s : State) (ha : Names a i) :
    exec (.jne a) s = complete (.jne a) (branchTo (!flagE s.fl) i s) := by
  rw [exec, execJne, withReg_names a i s _ ha]

/-! ## The statements about each of them -/

/-- Settles O27: CMP overwrites the whole of fl with the comparison, and step 5 advances pc by its three bytes. -/
theorem cmpSetsExactlyOneFlag : Obligations.CmpSetsExactlyOneFlag := by
  intro a b s hready
  refine ⟨rfl, fun i j ha hb => ?_, exec_badIndex_regs hready rfl⟩
  obtain ⟨p, hcomplete, hp⟩ :=
    complete_advances (ins := .cmp a b) (h := s.setFl (compareFlags (s.reg i) (s.reg j))) hready rfl
  exact ⟨_, (exec_cmp s ha hb).trans hcomplete, compareFlags_of_lt, compareFlags_of_gt, compareFlags_of_eq,
    fun _ => rfl, hp, rfl, hready.1, fun _ => rfl⟩

/-- Settles O30: the branch is taken exactly when E is clear; the index check comes before that decision. -/
theorem jneBranchesWhenNotEqual : Obligations.JneBranchesWhenNotEqual := by
  intro a s hready
  refine ⟨rfl, fun i ha => ?_, fun ha => exec_badIndex hready (firstBadIndex_first rfl ha)⟩
  obtain ⟨t, hcomplete, htaken, hfall, hframe⟩ := complete_branchTo (ins := .jne a) (!flagE s.fl) i hready rfl
  exact ⟨t, (exec_jne s ha).trans hcomplete, fun hE => htaken (congrArg not hE),
    fun hE => hfall (congrArg not hE), hframe⟩

end Sys2Proof.Machine

/-! # The stack (spec 43_stack_linkage.md)

Once the operand names a register and the guard lets SP move, each of the four instructions is one update of the state
(`exec_push`, `exec_pop`, `exec_call`, `exec_ret`). The round trips of R177 are then put together from what PUSH and POP
leave (`Pushes`, `Pops`), without looking at the instructions again. -/

namespace Sys2Proof.Machine

/-! ## The guard -/

/-- Only dispatched instructions have the guard. -/
theorem dispatched_of_stackGuard {ins : Instr} {s : State} {d : Nat} (hg : stackGuard ins s = some d) :
    opcode ins ∈ dispatchSet := by
  cases ins
  case ret | push | pop | call => simp [opcode, dispatchSet]
  all_goals cases hg

/-- The other answers of `exec` are those of an undispatched instruction, of a bad operand, or of a guard that is silent. -/
theorem exec_stackGuard {ins : Instr} {s : State} {d : Nat} (hready : s.Ready) (hw : wellFormed ins = true)
    (hg : stackGuard ins s = some d) : FaultsStackPointer ins s d := by
  rcases exec_answers ins s with ⟨hmem, -⟩ | ⟨-, ⟨v, hv, -⟩ | ⟨-, d', hd', hr⟩ | ⟨-, hnone, -⟩⟩
  · exact absurd (dispatched_of_stackGuard hg) hmem
  · simp [(firstBadIndex_none ins).2 hw] at hv
  · obtain rfl : d' = d := Option.some.inj (hd'.symm.trans hg)
    rw [FaultsStackPointer, hr, raise_eq, s.opcodeAtPc_ready (hready.2.trans (by decide))]
  · simp [hnone] at hg

theorem withDecSp_pass {s : State} (k : State → Result) (hsp : s.reg 7 ≠ 0x00#8) :
    withDecSp s k = k (s.setReg 7 (s.reg 7 - 1)) := by
  rcases withDecSp_cases s k with ⟨-, h⟩ | ⟨h0, -⟩
  · exact h
  · exact absurd h0 hsp

theorem withIncSp_pass {s loaded : State} (k : State → Result) (hsp : loaded.reg 7 ≠ 0xFF#8) :
    withIncSp s loaded k = k (loaded.setReg 7 (loaded.reg 7 + 1)) := by
  rcases withIncSp_cases s loaded k with ⟨-, h⟩ | ⟨h0, -⟩
  · exact h
  · exact absurd h0 hsp

/-! ## Numbers -/

theorem sub_one_toNat {v : Byte} (h : v ≠ 0x00#8) : (v - 1).toNat + 1 = v.toNat := by bv_omega

theorem add_one_toNat {v : Byte} (h : v ≠ 0xFF#8) : (v + 1).toNat = v.toNat + 1 := by bv_omega

/-- The return address fits in a byte wherever the CALL can be fetched (R176). -/
theorem returnAddress_toNat {s : State} (hpc : s.pc.toNat ≤ 253) : (returnAddress s).toNat = s.pc.toNat + 2 := by
  have hadd : (s.pc + 2).toNat = (s.pc.toNat + 2) % 2 ^ 9 := BitVec.toNat_add _ _
  rw [returnAddress, BitVec.toNat_setWidth, hadd]
  omega

/-! ## The four instructions, once the operand names a register and the guard lets SP move -/

theorem exec_push {a : Byte} {i : RegIx} (s : State) (ha : Names a i) (hsp : s.reg 7 ≠ 0x00#8) :
    exec (.push a) s = complete (.push a)
      ((s.setReg 7 (s.reg 7 - 1)).memWrite (s.reg 7 - 1) ((s.setReg 7 (s.reg 7 - 1)).reg i)) := by
  rw [exec, execPush, withReg_names a i s _ ha, withDecSp_pass _ hsp, State.setReg_sp]

theorem exec_pop {b : Byte} {j : RegIx} (s : State) (hb : Names b j)
    (hsp : (s.setReg j (s.memRead (s.reg 7))).reg 7 ≠ 0xFF#8) :
    exec (.pop b) s = complete (.pop b) ((s.setReg j (s.memRead (s.reg 7))).setReg 7
      ((s.setReg j (s.memRead (s.reg 7))).reg 7 + 1)) := by
  rw [exec, execPop, withReg_names b j s _ hb, State.sp_eq, withIncSp_pass _ hsp]

/-- A handler that sets pc itself leaves the next state: step 5 does nothing (R115). -/
theorem complete_of_transfers {ins : Instr} (h : State) (htransfers : Laws.Layout.transfers ins = true) :
    complete ins h = .next h := by
  obtain ⟨-, -, hbit⟩ := opcode_layout ins
  rw [complete, finishCycle_setsPc _ h (hbit.trans htransfers)]

theorem exec_call {a : Byte} {i : RegIx} (s : State) (ha : Names a i) (hsp : s.reg 7 ≠ 0x00#8) :
    exec (.call a) s = .next (((s.setReg 7 (s.reg 7 - 1)).memWrite (s.reg 7 - 1) (returnAddress s)).setPc
      (pcOfByte ((s.setReg 7 (s.reg 7 - 1)).reg i))) := by
  rw [exec, execCall, withReg_names a i s _ ha, withDecSp_pass _ hsp, State.setReg_sp, complete_of_transfers _ rfl]

theorem exec_ret (s : State) (hsp : s.reg 7 ≠ 0xFF#8) :
    exec .ret s = .next ((s.setReg 7 (s.reg 7 + 1)).setPc (pcOfByte (s.memRead (s.reg 7)))) := by
  rw [exec, execRet, withIncSp_pass _ hsp, State.sp_eq, complete_of_transfers _ rfl]

/-! ## CALL and RET -/

/-- Settles O33: the target is read after SP is lowered, so that CALL R7 finds the lowered SP in its own register. -/
theorem callSavesReturnAddressAndJumps : Obligations.CallSavesReturnAddressAndJumps := by
  intro a s hready hmem
  refine ⟨rfl, fun i ha hsp => ⟨_, exec_call s ha hsp, ?_⟩, fun ha hsp => ?_, fun ha =>
    exec_badIndex hready (firstBadIndex_first rfl ha)⟩
  · refine ⟨?_, ?_, ?_, ?_, ?_, rfl, rfl, hready.1⟩
    · simpa using sub_one_toNat hsp
    · intro k hk
      simp [hk]
    · simp [hmem, returnAddress_toNat hready.2]
    · intro c hc
      exact sameMemoryBut_memWrite _ _ _ c (by simpa using hc)
    · simp [State.setReg_reg]
  · have hw : wellFormed (.call a) = true := by
      simp [wellFormed, regOperands, isRegIndex_names a ⟨a.toNat, by omega⟩ rfl]
    exact exec_stackGuard hready hw (if_pos hsp)

/-- Settles O34: RET reads the byte at SP and raises SP; its guard fires at 255. -/
theorem retReturnsToStackedByte : Obligations.RetReturnsToStackedByte := by
  intro s hready
  refine ⟨rfl, fun hsp => ⟨_, exec_ret s hsp, ?_, ?_, ?_, rfl, rfl, hready.1, fun _ => rfl⟩, fun hsp =>
    exec_stackGuard hready rfl (if_pos hsp)⟩
  · simp
  · simpa using add_one_toNat hsp
  · intro k hk
    simp [hk]

/-- Settles O43: CALL leaves SP below 255, so RET's guard is silent, and RET finds the return address there. -/
theorem callThenRetReturns : Obligations.CallThenRetReturns := by
  intro a i s hready hmem ha hsp
  obtain ⟨-, hcall, -⟩ := callSavesReturnAddressAndJumps a s hready hmem
  obtain ⟨t, hexec, htsp, -, htop, -⟩ := hcall i ha hsp
  refine ⟨t, hexec, fun v hv hvsp hvtop => ?_⟩
  have hbelow : v.reg 7 ≠ 0xFF#8 := by rw [hvsp]; bv_omega
  obtain ⟨-, hret, -⟩ := retReturnsToStackedByte v hv
  obtain ⟨u, huexec, hupc, husp, -⟩ := hret hbelow
  refine ⟨u, huexec, ?_, BitVec.eq_of_toNat_eq ?_⟩
  · rw [hupc, hvtop, htop]
  · rw [husp, hvsp, htsp]

/-! ## PUSH and POP -/

/-- All that changed from `s`, of canonical memory, to `t`: SP is one lower, the byte there is `v`, and pc is past the two
bytes of a PUSH; the machine is RUNNING. -/
structure Pushes (v : Byte) (s t : State) : Prop where
  sp : t.reg 7 = s.reg 7 - 1
  regs : SameRegsBut 7 s t
  top : t.memRead (t.reg 7) = v
  memory : SameMemoryBut (t.reg 7) s t
  wf : t.mem.wf = true
  fl : t.fl = s.fl
  out : t.out = s.out
  pc : t.pc.toNat = s.pc.toNat + 2
  running : t.status = .running

/-- All that changed from `s` to `t`: register `j` holds the byte at SP, SP is one higher, and pc is past the two bytes of a
POP; the machine is RUNNING. -/
structure Pops (j : RegIx) (s t : State) : Prop where
  reg : t.reg j = s.memRead (s.reg 7)
  sp : t.reg 7 = s.reg 7 + 1
  regs : SameRegsBut2 j 7 s t
  memory : SameMemory s t
  fl : t.fl = s.fl
  out : t.out = s.out
  pc : t.pc.toNat = s.pc.toNat + 2
  running : t.status = .running

/-- R172 for a register other than SP. -/
theorem exec_push_pushes {a : Byte} {i : RegIx} {s : State} (hready : s.Ready) (hmem : s.mem.wf = true) (ha : Names a i)
    (hi : i ≠ 7) (hsp : s.reg 7 ≠ 0x00#8) : ∃ t, exec (.push a) s = .next t ∧ Pushes (s.reg i) s t := by
  obtain ⟨p, hcomplete, hp⟩ := complete_advances (ins := .push a)
    (h := (s.setReg 7 (s.reg 7 - 1)).memWrite (s.reg 7 - 1) ((s.setReg 7 (s.reg 7 - 1)).reg i)) hready rfl
  refine ⟨_, (exec_push s ha hsp).trans hcomplete, ?_, ?_, ?_, ?_, State.memWrite_wf _ _ _ hmem, rfl, rfl,
    hp, hready.1⟩
  · simp
  · intro k hk
    simp [hk]
  · simp [hmem, hi]
  · intro c hc
    exact sameMemoryBut_memWrite _ _ _ c (by simpa using hc)

/-- R173 for a register other than SP. -/
theorem exec_pop_pops {b : Byte} {j : RegIx} {s : State} (hready : s.Ready) (hb : Names b j) (hj : j ≠ 7)
    (hsp : s.reg 7 ≠ 0xFF#8) : ∃ t, exec (.pop b) s = .next t ∧ Pops j s t := by
  have hkeep : (s.setReg j (s.memRead (s.reg 7))).reg 7 = s.reg 7 := State.setReg_reg_other _ _ _ _ hj.symm
  have hexec := exec_pop s hb (hkeep.trans_ne hsp)
  rw [hkeep] at hexec
  obtain ⟨p, hcomplete, hp⟩ := complete_advances (ins := .pop b)
    (h := (s.setReg j (s.memRead (s.reg 7))).setReg 7 (s.reg 7 + 1)) hready rfl
  refine ⟨_, hexec.trans hcomplete, ?_, ?_, ?_, fun _ => rfl, rfl, rfl, hp, hready.1⟩
  · simp [hj]
  · simp
  · intro k hkj hk7
    simp [hkj, hk7]

/-- PUSH then POP moves a value from one register to another (R177), of which the second may be the first; SP and every
byte but the pushed one are as before, so what was stacked earlier is not disturbed. -/
theorem push_then_pop {a b : Byte} {i j : RegIx} {s : State} (hs : s.status = .running) (hpc : s.pc.toNat ≤ 251)
    (hmem : s.mem.wf = true) (ha : Names a i) (hb : Names b j) (hi : i ≠ 7) (hj : j ≠ 7) (hsp : s.reg 7 ≠ 0x00#8) :
    ∃ t u, exec (.push a) s = .next t ∧ t.Ready ∧ exec (.pop b) t = .next u ∧ u.status = .running ∧
      u.reg j = s.reg i ∧ u.reg 7 = s.reg 7 ∧ SameRegsBut j s u ∧ SameMemoryBut (s.reg 7 - 1) s u ∧
      u.pc.toNat = s.pc.toNat + 4 := by
  obtain ⟨t, htexec, ht⟩ := exec_push_pushes ⟨hs, by omega⟩ hmem ha hi hsp
  have htready : t.Ready := ⟨ht.running, by rw [ht.pc]; omega⟩
  have hbelow : t.reg 7 ≠ 0xFF#8 := by rw [ht.sp]; bv_omega
  obtain ⟨u, huexec, hu⟩ := exec_pop_pops htready hb hj hbelow
  have husp : u.reg 7 = s.reg 7 := by rw [hu.sp, ht.sp, BitVec.sub_add_cancel]
  refine ⟨t, u, htexec, htready, huexec, hu.running, hu.reg.trans ht.top, husp, fun k hk => ?_, fun c hc => ?_, ?_⟩
  · by_cases hk7 : k = 7
    · rw [hk7, husp]
    · exact (hu.regs k hk hk7).trans (ht.regs k hk7)
  · exact (hu.memory c).trans (ht.memory c (by rwa [ht.sp]))
  · rw [hu.pc, ht.pc]

/-- Settles O41: `push_then_pop`, of which the statement leaves out the case of one register. -/
theorem pushThenPopRestores : Obligations.PushThenPopRestores := by
  intro a b i j s hs hpc hmem ha hb hi hj _ hsp
  obtain ⟨t, u, htexec, htready, huexec, -, hframe⟩ := push_then_pop hs hpc hmem ha hb hi hj hsp
  exact ⟨t, u, htexec, htready, huexec, hframe⟩

/-- Settles O42: between the outer PUSH and POP, the inner pair (`push_then_pop`) keeps SP and the byte there. -/
theorem nestedPushesPopInReverse : Obligations.NestedPushesPopInReverse := by
  intro a b c d i j k l s hs hpc hmem ha hb hc hd hi hj hk hl hkl hsp
  have hsp0 : s.reg 7 ≠ 0x00#8 := by bv_omega
  obtain ⟨t, htexec, ht⟩ := exec_push_pushes ⟨hs, by omega⟩ hmem ha hi hsp0
  have htpc := ht.pc
  have htsp := ht.sp
  have htsp0 : t.reg 7 ≠ 0x00#8 := by bv_omega
  obtain ⟨u, v, huexec, huready, hvexec, hvs, hvk, hvsp, -, hvmem, hvpc⟩ :=
    push_then_pop ht.running (by omega) ht.wf hb hc hj hk htsp0
  have hvready : v.Ready := ⟨hvs, by omega⟩
  have hvtop : v.memRead (v.reg 7) = s.reg i := by
    rw [hvsp, hvmem (t.reg 7) (by bv_omega), ht.top]
  obtain ⟨w, hwexec, hw⟩ := exec_pop_pops hvready hd hl (by bv_omega)
  refine ⟨t, u, v, w, htexec, ⟨ht.running, by omega⟩, huexec, huready, hvexec, hvready, hwexec, ?_, hw.reg.trans hvtop, ?_⟩
  · rw [hw.regs k hkl hk, hvk, ht.regs j hj]
  · rw [hw.sp, hvsp, htsp, BitVec.sub_add_cancel]

end Sys2Proof.Machine

/-! # The causes of faults (spec 60_exceptions.md)

`FaultArises` puts the condition of each cause beside it. Each condition is enough for its fault (`step_of_faultArises`), and
a step that faults does so under one of them (`faultArises_of_step`). -/

namespace Sys2Proof.Machine

/-- The condition under which a step from `s` takes the fault `c` with the detail `d` (R231 to R237, R240). -/
def FaultArises (s : State) (c : FaultCause) (d : Nat) : Prop :=
  match c with
  | .addressOutOfRange => 254 ≤ s.pc.toNat ∧ d = max s.pc.toNat 256
  | .illegalInstruction => s.pc.toNat ≤ 253 ∧ s.opcodeHere ∉ dispatchSet ∧ d = s.opcodeHere.toNat
  | .registerIndexOutOfRange => s.pc.toNat ≤ 253 ∧ ∃ i v, s.Holds i ∧ firstBadIndex i = some v ∧ d = v.toNat
  | .stackPointerRange => s.pc.toNat ≤ 253 ∧ ∃ i, s.Holds i ∧ wellFormed i = true ∧ stackGuard i s = some d
  | .aluContractViolation => False

theorem State.stopped_inj {s : State} {c c' : FaultCause} {op : Option Byte} {d d' : Nat}
    (h : s.stopped c op d = s.stopped c' op d') : c = c' ∧ d = d' := by
  simpa [State.stopped] using h

/-- The lookup finds no handler, whether the byte has no row or the row of an undispatched instruction (R113, R200). -/
theorem step_undispatched {s : State} (hready : s.Ready) (hmem : s.opcodeHere ∉ dispatchSet) :
    step s = raiseIllegal s.opcodeHere s := by
  rw [step_ready s hready]
  split
  next i hi =>
    rw [← State.Holds.opcode_eq hi] at hmem ⊢
    rcases exec_answers i s with ⟨-, -, hr⟩ | ⟨hin, -⟩
    · exact hr
    · exact absurd hin hmem
  next => rfl

theorem step_of_faultArises {s : State} {c : FaultCause} {d : Nat} (hs : s.status = .running) (h : FaultArises s c d) :
    step s = .next (s.stopped c s.opcodeAtPc d) := by
  cases c with
  | addressOutOfRange =>
    obtain ⟨hpc, rfl⟩ := h
    exact step_above s hs hpc
  | illegalInstruction =>
    obtain ⟨hpc, hmem, rfl⟩ := h
    rw [step_undispatched ⟨hs, hpc⟩ hmem, raiseIllegal_eq, s.opcodeAtPc_ready (by omega)]
  | registerIndexOutOfRange =>
    obtain ⟨hpc, i, v, hi, hbad, rfl⟩ := h
    rw [stepRunsDecodedInstruction s i ⟨hs, hpc⟩ hi, exec_badIndex ⟨hs, hpc⟩ hbad, s.opcodeAtPc_ready (by omega)]
  | stackPointerRange =>
    obtain ⟨hpc, i, hi, hw, hg⟩ := h
    rw [stepRunsDecodedInstruction s i ⟨hs, hpc⟩ hi, exec_stackGuard ⟨hs, hpc⟩ hw hg, s.opcodeAtPc_ready (by omega)]
  | aluContractViolation => exact h.elim

/-- A step that faults cannot fetch, finds no handler, or runs an instruction that reports an operand or the guard; a
completed handler does not fault. -/
theorem faultArises_of_step {s t : State} {r : FaultRecord} (hs : s.status = .running) (hstep : step s = .next t)
    (hr : t.status = .faulted r) : ∃ d, t = s.stopped r.cause s.opcodeAtPc d ∧ FaultArises s r.cause d := by
  suffices h : ∃ c d, FaultArises s c d by
    obtain ⟨c, d, h⟩ := h
    rw [step_of_faultArises hs h] at hstep
    cases hstep
    cases hr
    exact ⟨d, rfl, h⟩
  rcases Nat.lt_or_ge 253 s.pc.toNat with habove | hpc
  · exact ⟨.addressOutOfRange, _, habove, rfl⟩
  by_cases hmem : s.opcodeHere ∈ dispatchSet
  case neg => exact ⟨.illegalInstruction, _, hpc, hmem, rfl⟩
  obtain ⟨i, hi⟩ : ∃ i, s.Holds i := by
    cases hd : decode [s.opcodeHere, s.mem.read (s.pc.toNat + 1), s.mem.read (s.pc.toNat + 2)] with
    | ok i => exact ⟨i, hd⟩
    | error e =>
      have hnone := (decode_three_error _ _ _ e hd).1
      simpa [hnone] using opcodeForm_dispatched _ hmem
  rw [stepRunsDecodedInstruction s i ⟨hs, hpc⟩ hi] at hstep
  rcases exec_answers i s with ⟨hnot, -⟩ | ⟨-, ⟨v, hv, -⟩ | ⟨hw, d, hd, -⟩ | ⟨-, -, h, hc, -, hstatus⟩⟩
  · exact absurd (hi.opcode_eq ▸ hmem) hnot
  · exact ⟨.registerIndexOutOfRange, _, hpc, i, v, hi, hv, rfl⟩
  · exact ⟨.stackPointerRange, d, hpc, i, hi, hw, hd⟩
  · rw [hc] at hstep
    cases hstep
    rw [finishCycle_status] at hr
    rcases hstatus with hkept | ⟨-, rfl⟩
    · rw [hkept, hs] at hr
      cases hr
    · cases hr

theorem stopped_iff_faultArises {s t : State} (hs : s.status = .running) (hstep : step s = .next t) (c : FaultCause)
    (d : Nat) : t = s.stopped c s.opcodeAtPc d ↔ FaultArises s c d := by
  constructor
  · rintro rfl
    obtain ⟨d', heq, h⟩ := faultArises_of_step hs hstep rfl
    obtain ⟨-, rfl⟩ := State.stopped_inj heq
    exact h
  · intro h
    rw [step_of_faultArises hs h] at hstep
    exact (Host.Outcome.next.inj hstep).symm

/-- Settles O5: each clause is `stopped_iff_faultArises` for its cause; the reserved cause arises under no condition. -/
theorem faultCausesSayWhatHappened : Obligations.FaultCausesSayWhatHappened := by
  intro s t hs hstep
  have recorded := stopped_iff_faultArises hs hstep
  refine ⟨recorded .addressOutOfRange, recorded .illegalInstruction, recorded .registerIndexOutOfRange,
    recorded .stackPointerRange, fun r hr => ?_⟩
  obtain ⟨d, heq, h⟩ := faultArises_of_step hs hstep hr
  refine ⟨fun hcause => ?_, d, heq⟩
  rw [hcause] at h
  exact h

end Sys2Proof.Machine

/-! # Data movement (spec 44_data_movement.md)

LDI completes as an ALU instruction does, with one register overwritten (`complete_setReg`), and its value is the immediate
byte itself. PRN leaves pc to step 5 (`complete_advances`) and touches nothing but the output. -/

namespace Sys2Proof.Machine

/-! ## The instructions, once their operand byte names a register -/

theorem exec_ldi {a : Byte} {i : RegIx} (imm : Byte) (s : State) (ha : Names a i) :
    exec (.ldi a imm) s = complete (.ldi a imm) (s.setReg i imm) := by
  rw [exec, execLdi, withReg_names a i s _ ha]

theorem exec_prn {a : Byte} {i : RegIx} (s : State) (ha : Names a i) :
    exec (.prn a) s = complete (.prn a) (s.emit (s.reg i)) := by
  rw [exec, execPrn, withReg_names a i s _ ha]

/-! ## The statements about each of them -/

/-- Settles O35: the immediate overwrites the register with no range check of its own, and its number determines the byte. -/
theorem ldiLoadsImmediate : Obligations.LdiLoadsImmediate := by
  intro a imm s hready
  refine ⟨rfl, fun i ha => ?_, fun ha => exec_badIndex hready (firstBadIndex_first rfl ha)⟩
  obtain ⟨t, hcomplete, hvalue, hframe⟩ := complete_setReg (ins := .ldi a imm) (i := i) (v := imm) hready rfl
  exact ⟨t, (exec_ldi imm s ha).trans hcomplete, BitVec.eq_of_toNat_eq hvalue, hframe⟩

/-- Settles O36: the named register's byte is appended to the output before step 5 advances pc by the two bytes; a bad index
faults before anything is emitted. -/
theorem prnEmitsRegister : Obligations.PrnEmitsRegister := by
  intro a s hready
  refine ⟨rfl, fun i ha => ?_, fun ha => exec_badIndex hready (firstBadIndex_first rfl ha)⟩
  obtain ⟨p, hcomplete, hp⟩ := complete_advances (ins := .prn a) (h := s.emit (s.reg i)) hready rfl
  exact ⟨_, (exec_prn s ha).trans hcomplete, rfl, fun _ => rfl, hp, rfl, hready.1, fun _ => rfl⟩

end Sys2Proof.Machine

/-! # Declared, undispatched opcodes (spec 45_declared_undispatched.md)

All seventeen rules instantiate R200: an opcode byte outside the dispatch table faults (`exec_undispatched`). What each
instruction adds to it is the value of its byte. -/

namespace Sys2Proof.Machine

/-- R200: a byte without a handler is reported by its own value, whatever the operand bytes are. -/
theorem exec_undispatched {i : Instr} {ir : Byte} (s : State) (hop : opcode i = ir) (hnot : ir ∉ dispatchSet) :
    FaultsIllegal i s ir := by
  subst hop
  rcases exec_answers i s with ⟨-, -, hr⟩ | ⟨hmem, -⟩
  · exact hr.trans (raiseIllegal_eq _ s)
  · exact absurd hmem hnot

/-- Settles O38: `exec_undispatched` at each of the eight bytes. -/
theorem undispatchedArithmeticFaults : Obligations.UndispatchedArithmeticFaults := by
  intro x y s _
  exact ⟨
    rfl, exec_undispatched (i := .div x y) s rfl (by decide),
    rfl, exec_undispatched (i := .mod x y) s rfl (by decide),
    rfl, exec_undispatched (i := .and x y) s rfl (by decide),
    rfl, exec_undispatched (i := .or x y) s rfl (by decide),
    rfl, exec_undispatched (i := .xor x y) s rfl (by decide),
    rfl, exec_undispatched (i := .not x) s rfl (by decide),
    rfl, exec_undispatched (i := .shl x y) s rfl (by decide),
    rfl, exec_undispatched (i := .shr x y) s rfl (by decide)⟩

/-- Settles O39: `exec_undispatched` at each of the six bytes. -/
theorem undispatchedLoadsAndJumpsFault : Obligations.UndispatchedLoadsAndJumpsFault := by
  intro x y s _
  exact ⟨
    rfl, exec_undispatched (i := .ld x y) s rfl (by decide),
    rfl, exec_undispatched (i := .st x y) s rfl (by decide),
    rfl, exec_undispatched (i := .jgt x) s rfl (by decide),
    rfl, exec_undispatched (i := .jge x) s rfl (by decide),
    rfl, exec_undispatched (i := .jlt x) s rfl (by decide),
    rfl, exec_undispatched (i := .jle x) s rfl (by decide)⟩

/-- Settles O40: `exec_undispatched` at each of the three bytes; NOP's 0x00, the fill value of memory, is one of them. -/
theorem interruptOpcodesAndNopFault : Obligations.InterruptOpcodesAndNopFault := by
  intro x s _
  exact ⟨
    rfl, exec_undispatched (i := .int x) s rfl (by decide),
    rfl, exec_undispatched (i := .iret) s rfl (by decide),
    rfl, exec_undispatched (i := .nop) s rfl (by decide)⟩

end Sys2Proof.Machine

/-! # Bytes without a handler (spec 60_exceptions.md R232)

R200 and the 223 absent bytes are one case: what counts is that the byte at pc is outside the dispatch table. -/

namespace Sys2Proof.Machine

/-- Settles O7: `step_undispatched` covers a byte with an undispatched row and a byte with none. The sixteen bytes of the
statement are `dispatchSet` written out. -/
theorem byteWithoutHandlerFaults : Obligations.ByteWithoutHandlerFaults := by
  intro s hready hbyte
  have hnot : s.opcodeHere ∉ dispatchSet := hbyte
  have hstep : step s = .next (s.stopped .illegalInstruction (some s.opcodeHere) s.opcodeHere.toNat) :=
    (step_undispatched hready hnot).trans (raiseIllegal_eq s.opcodeHere s)
  exact ⟨hstep, rfl⟩

end Sys2Proof.Machine

/-! # The invariant (spec 10_state.md R29, R35; 60_exceptions.md R231 to R237)

A step halts, faults or leaves the machine RUNNING (`cycleHasOneOfThreeOutcomes`). A fault keeps everything the invariant
speaks of but the status, and its record fits because of the condition it arises under (`FaultArises.recordFits`). A step
that leaves the machine RUNNING is that of a completed handler, so canonical memory and legal flags are read off `HandlerLeaves`;
the bound on pc rests on the advance from at most 253 and, in a control transfer, on a target that is a byte. -/

namespace Sys2Proof.Machine

/-! ## The record of a fault -/

theorem firstBadIndex_above {i : Instr} {v : Byte} (h : firstBadIndex i = some v) : 7 < v.toNat := by
  have hbad := List.find?_some h
  simp only [isRegIndex, Bool.not_eq_true', decide_eq_false_iff_not] at hbad
  omega

/-- What each cause's condition says of the detail is what `recordFits` asks of it. -/
theorem FaultArises.recordFits {s : State} {c : FaultCause} {d : Nat} (h : FaultArises s c d) (hpc : s.pc.toNat ≤ 256) :
    recordFits s { cause := c, opcode := s.opcodeAtPc, pc := s.pc, detail := some d } = true := by
  cases c with
  | addressOutOfRange =>
    obtain ⟨habove, rfl⟩ := h
    simpa [Machine.recordFits, hpc] using habove
  | illegalInstruction =>
    obtain ⟨hbelow, hmem, rfl⟩ := h
    simp [Machine.recordFits, hbelow, hmem]
  | registerIndexOutOfRange =>
    obtain ⟨-, i, v, -, hbad, rfl⟩ := h
    have habove := firstBadIndex_above hbad
    have hbyte := v.isLt
    simpa [Machine.recordFits, habove] using Nat.le_of_lt_succ hbyte
  | stackPointerRange =>
    obtain ⟨-, i, -, -, hg⟩ := h
    rcases stackGuard_ends i s d hg with rfl | rfl <;> simp [Machine.recordFits]
  | aluContractViolation => exact h.elim

/-- Taking a fault keeps the invariant: `recordFits` reads only pc and memory, which are those of `s`. -/
theorem FaultArises.inv_stopped {s : State} {c : FaultCause} {d : Nat} (h : FaultArises s c d) (hinv : s.Inv) :
    (s.stopped c s.opcodeAtPc d).Inv := by
  obtain ⟨hmem, hpc, hfl, -⟩ := hinv
  exact ⟨hmem, hpc, hfl, h.recordFits hpc⟩

/-! ## Memory and flags of a completed handler -/

theorem HandlerLeaves.mem_wf {i : Instr} {s h : State} (hh : HandlerLeaves i s h) (hw : s.mem.wf = true) :
    h.mem.wf = true := by
  cases i <;> simp only [HandlerLeaves] at hh
  case push => obtain ⟨j, -, rfl⟩ := hh; exact State.memWrite_wf _ _ _ hw
  case call => subst hh; exact State.memWrite_wf _ _ _ hw
  case hlt | ret | jmp | jeq | jne => subst hh; exact hw
  case pop | prn => obtain ⟨j, -, rfl⟩ := hh; exact hw
  case inc | dec | ldi | add | sub | mul => obtain ⟨j, v, -, rfl⟩ := hh; exact hw
  case cmp => obtain ⟨j, k, -, -, rfl⟩ := hh; exact hw

theorem exec_mem_wf {i : Instr} {s t : State} (he : exec i s = .next t) (hw : s.mem.wf = true) : t.mem.wf = true := by
  rcases exec_next i s t he with ⟨_, _, _, rfl⟩ | ⟨h, p, hh, rfl⟩
  · exact hw
  · exact hh.mem_wf hw

theorem exec_fl_legal {i : Instr} {s t : State} (he : exec i s = .next t) (hfl : s.fl ∈ legalFlags) :
    t.fl ∈ legalFlags := by
  by_cases hkept : t.fl = s.fl
  · rwa [hkept]
  · obtain ⟨-, hbits⟩ := onlyCmpWritesFlags i s t he hkept
    rcases hbits with h | h | h <;> simp [h, legalFlags]

/-! ## The bound on pc -/

/-- A transfer to a byte's value stays below 256 (10_state.md R29). -/
theorem complete_setPc_pcOfByte {ins : Instr} {h t : State} {v : Byte} (htransfers : Laws.Layout.transfers ins = true)
    (hc : complete ins (h.setPc (pcOfByte v)) = .next t) : t.pc.toNat ≤ 256 := by
  rw [complete_of_transfers _ htransfers] at hc
  cases hc
  have hbyte := v.isLt
  rw [State.setPc_pc, pcOfByte_toNat]
  omega

/-- A branch goes to a byte's value or past its own two bytes; an index fault keeps pc. -/
theorem branch_pc_le {ins : Instr} {s t : State} {a : Byte} {taken : Bool} (hready : s.Ready)
    (htransfers : Laws.Layout.transfers ins = true)
    (he : withReg a s (fun i => complete ins (branchTo taken i s)) = .next t) : t.pc.toNat ≤ 256 := by
  have hpc := hready.2
  rcases withReg_next a s t _ he with ⟨i, -, hc⟩ | ⟨_, _, _, rfl⟩
  · obtain ⟨u, hu, htaken, hfall, -⟩ := complete_branchTo (ins := ins) taken i hready htransfers
    obtain rfl : u = t := Host.Outcome.next.inj (hu.symm.trans hc)
    cases taken
    · rw [hfall rfl]; omega
    · rw [htaken rfl]; have := (s.reg i).isLt; omega
  · exact hpc.trans (by decide)

/-- A control transfer goes to a byte's value or past its own two bytes; a fault keeps pc. -/
theorem exec_transfer_pc_le {i : Instr} {s t : State} (hready : s.Ready) (htransfers : Laws.Layout.transfers i = true)
    (he : exec i s = .next t) : t.pc.toNat ≤ 256 := by
  have hkept : s.pc.toNat ≤ 256 := hready.2.trans (by decide)
  cases i
  case jmp | jeq | jne => exact branch_pc_le hready rfl he
  case ret =>
    rcases withIncSp_next s s t _ he with ⟨-, hc⟩ | ⟨_, _, _, rfl⟩
    · exact complete_setPc_pcOfByte rfl hc
    · exact hkept
  case call a =>
    rw [exec, execCall] at he
    rcases withReg_next a s t _ he with ⟨j, -, hd⟩ | ⟨_, _, _, rfl⟩
    · rcases withDecSp_next s t _ hd with ⟨-, hc⟩ | ⟨_, _, _, rfl⟩
      · exact complete_setPc_pcOfByte rfl hc
      · exact hkept
    · exact hkept
  case int | iret | jgt | jge | jlt | jle => cases he; exact hkept
  all_goals cases htransfers

theorem exec_running_pc_le {i : Instr} {s t : State} (hready : s.Ready) (he : exec i s = .next t)
    (ht : t.status = .running) : t.pc.toNat ≤ 256 := by
  obtain ⟨hlen, hcount, hbit⟩ := opcode_layout i
  cases htransfers : Laws.Layout.transfers i with
  | true => exact exec_transfer_pc_le hready htransfers he
  | false =>
    have hadvance := (pcAdvancesByLength i s t hready (hbit.trans htransfers) he ht).1
    have hpc := hready.2
    omega

/-! ## Every step, and every run -/

/-- A dispatched byte at pc heads an instruction, whatever bytes follow. -/
theorem State.holds_of_dispatched {s : State} (hmem : s.opcodeHere ∈ dispatchSet) : ∃ i, s.Holds i := by
  cases hd : decode [s.opcodeHere, s.mem.read (s.pc.toNat + 1), s.mem.read (s.pc.toNat + 2)] with
  | ok i => exact ⟨i, hd⟩
  | error e =>
    have hnone := (decode_three_error _ _ _ e hd).1
    simpa [hnone] using opcodeForm_dispatched _ hmem

/-- The case of a step that neither halts nor faults. -/
theorem step_running_inv {s t : State} (hinv : s.Inv) (hready : s.Ready) (hmem : s.opcodeHere ∈ dispatchSet)
    (hstep : step s = .next t) (ht : t.status = .running) : t.Inv := by
  obtain ⟨hwf, -, hfl, -⟩ := hinv
  obtain ⟨i, hi⟩ := State.holds_of_dispatched hmem
  rw [stepRunsDecodedInstruction s i hready hi] at hstep
  exact ⟨exec_mem_wf hstep hwf, exec_running_pc_le hready hstep ht, exec_fl_legal hstep hfl, by simp [statusFits, ht]⟩

/-- Settles O10: by the three outcomes of a cycle; only a RUNNING state has a step. -/
theorem stepKeepsInvariant : Obligations.StepKeepsInvariant := by
  intro s t hinv hstep
  have hs : s.status = .running := by
    by_contra hended
    exact endedStateHasNoStep s hended t hstep
  obtain ⟨u, hu, houtcome⟩ := cycleHasOneOfThreeOutcomes s hs
  obtain rfl : u = t := Host.Outcome.next.inj (hu.symm.trans hstep)
  rcases houtcome with ⟨hrun, ⟨hpc, hmem⟩, -⟩ | ⟨-, rfl⟩ | ⟨c, d, rfl⟩
  · exact step_running_inv hinv ⟨hs, hpc⟩ hmem hstep hrun
  · obtain ⟨hwf, hpc, hfl, -⟩ := hinv
    exact ⟨hwf, hpc, hfl, rfl⟩
  · exact ((stopped_iff_faultArises hs hstep c d).1 rfl).inv_stopped hinv

/-- Settles O9: every clause is computed at the reset values. -/
theorem invariantAtReset : Obligations.InvariantAtReset := by
  unfold Obligations.InvariantAtReset
  decide

/-- What every step keeps holds after any number of steps. -/
theorem run_keeps {P : State → Prop} (hstep : ∀ s t, P s → step s = .next t → P t) (k : Nat) {s t : State} (hs : P s)
    (hrun : Host.Core.run Sys2Proof.core k s = .next t) : P t := by
  induction k generalizing s with
  | zero => cases hrun; exact hs
  | succ k ih =>
    simp only [Host.Core.run] at hrun
    split at hrun
    next u hu => exact ih (hstep s u hs hu) hrun
    next => cases hrun
    next => cases hrun

/-- Loading an image changes memory only, and keeps its form; the invariant at reset reads nothing else. -/
theorem inv_of_bootState {image : List Byte} {s : State} (h : bootState image = some s) : s.Inv := by
  unfold bootState at h
  split at h
  · cases h
    obtain ⟨hwf, hpc, hfl, hstatus⟩ := invariantAtReset
    exact ⟨Memory.wf_placeBytes _ 0 image hwf, hpc, hfl, hstatus⟩
  · cases h

/-- Settles O12: the invariant holds of the loaded reset state and every step keeps it. -/
theorem reachedStatesSatisfyInvariant : Obligations.ReachedStatesSatisfyInvariant := by
  rintro image t ⟨s, k, hboot, hrun⟩
  exact run_keeps stepKeepsInvariant k (inv_of_bootState hboot) hrun

end Sys2Proof.Machine

/-! # Loading an image, and the canonical form (spec 70_reset_and_hazards.md R271 to R276; 20_memory.md) -/

namespace Sys2Proof.Machine

/-! ## The bytes of an image -/

/-- Addresses above the placed bytes are untouched. -/
theorem Memory.read_placeBytes_above (m : Memory) (a b : Nat) (bs : List Byte) (h : a + bs.length ≤ b) :
    Memory.read (placeBytes m a bs) b = m.read b := by
  induction bs generalizing m a with
  | nil => rfl
  | cons v rest ih =>
    rw [List.length_cons] at h
    rw [placeBytes, ih _ _ (by omega)]
    split
    · exact Memory.read_write_other m a b v (by omega)
    · rfl

/-- Where all of them have an address, byte `k` of the placed ones is at `k` past the first. -/
theorem Memory.read_placeBytes_getElem (m : Memory) (a k : Nat) (bs : List Byte) (hw : m.wf = true)
    (hfit : a + bs.length ≤ Config.memSize) (hk : k < bs.length) : Memory.read (placeBytes m a bs) (a + k) = bs[k] := by
  induction bs generalizing m a k with
  | nil => cases hk
  | cons v rest ih =>
    rw [List.length_cons] at hfit hk
    have ha : a < Config.memSize := by omega
    rw [placeBytes, if_pos ha]
    cases k with
    | zero =>
      rw [Memory.read_placeBytes_below _ _ _ _ (by omega)]
      exact Memory.read_write_same m a v hw
    | succ k =>
      rw [show a + (k + 1) = a + 1 + k by omega]
      exact ih _ _ _ (Memory.wf_write m a v hw ha) (by omega) (by omega)

/-- Settles O13: every clause is computed at the reset values. -/
theorem resetLeavesTheseValues : Obligations.ResetLeavesTheseValues := by
  refine ⟨rfl, rfl, ?_, rfl, rfl, rfl, rfl, fun _ => rfl⟩
  decide

/-- Settles O11: the image is placed from address 0 in memory that reads 0 everywhere; all else is as at reset. -/
theorem loadedImageBoots : Obligations.LoadedImageBoots := by
  intro image
  obtain ⟨hsp, -, hregs, hpc, hfl, hstatus, hout, -⟩ := resetLeavesTheseValues
  constructor
  · intro hlen
    have hboot : bootState image = some { State.reset with mem := placeBytes State.reset.mem 0 image } := if_pos hlen
    refine ⟨_, hboot, inv_of_bootState hboot, fun k hk => ?_, fun k hk => ?_, hpc, hfl, hstatus, hout, hsp, hregs⟩
    · have hread := Memory.read_placeBytes_getElem State.reset.mem 0 k image Memory.wf_reset (by rwa [Nat.zero_add]) hk
      rwa [Nat.zero_add] at hread
    · exact Memory.read_placeBytes_above State.reset.mem 0 k image (by rwa [Nat.zero_add])
  · exact fun hlong => if_neg hlong.not_ge

/-! ## Equal reads are equal memories -/

theorem Memory.read_cons_same (k : Nat) (v : Byte) (rest : Memory) : Memory.read ((k, v) :: rest) k = v := by
  simp [Memory.read]

/-- The first listed address of one canonical memory is listed in, or above the first of, any that reads alike: below its
first address a memory reads as the fill value, which is never listed. -/
theorem Memory.not_below_of_reads {k : Nat} {v : Byte} {rest n : Memory} (hw : Memory.wf ((k, v) :: rest) = true)
    (hread : Memory.read ((k, v) :: rest) k = n.read k) : ¬ ∀ c ∈ n, k < c.1 := by
  intro hbelow
  obtain ⟨-, hv, -, -⟩ := (Memory.wf_cons k v rest).1 hw
  rw [Memory.read_cons_same, Memory.read_below n k hbelow] at hread
  exact hv hread

/-- A listed address is below 256, so reads below 256 are all the reads there are. -/
theorem Memory.eq_of_read_eq {m n : Memory} (hm : m.wf = true) (hn : n.wf = true)
    (hread : ∀ a, a < 256 → m.read a = n.read a) : m = n := by
  induction m generalizing n with
  | nil =>
    cases n with
    | nil => rfl
    | cons d rest' =>
      obtain ⟨k', v'⟩ := d
      obtain ⟨hk', -⟩ := (Memory.wf_cons k' v' rest').1 hn
      exact absurd (by simp) (Memory.not_below_of_reads hn (hread k' hk').symm)
  | cons c rest ih =>
    obtain ⟨k, v⟩ := c
    obtain ⟨hk, -, hlow, hrest⟩ := (Memory.wf_cons k v rest).1 hm
    have hfirst := Memory.not_below_of_reads hm (hread k hk)
    cases n with
    | nil => exact absurd (by simp) hfirst
    | cons d rest' =>
      obtain ⟨k', v'⟩ := d
      obtain ⟨hk', -, hlow', hrest'⟩ := (Memory.wf_cons k' v' rest').1 hn
      have hfirst' := Memory.not_below_of_reads hn (hread k' hk').symm
      rcases lt_trichotomy k k' with hlt | rfl | hgt
      · exact (hfirst (List.forall_mem_cons.2 ⟨hlt, fun c hc => hlt.trans (hlow' c hc)⟩)).elim
      · have hv : v = v' := by simpa only [Memory.read_cons_same] using hread k hk
        rw [hv, ih hrest hrest' fun a ha => ?_]
        by_cases hak : k < a
        · simpa [Memory.read, hak.ne] using hread a ha
        · rw [Memory.read_below rest a fun c hc => (not_lt.1 hak).trans_lt (hlow c hc),
            Memory.read_below rest' a fun c hc => (not_lt.1 hak).trans_lt (hlow' c hc)]
      · exact (hfirst' (List.forall_mem_cons.2 ⟨hgt, fun c hc => hgt.trans (hlow c hc)⟩)).elim

/-- Settles O46: `Memory.eq_of_read_eq`. -/
theorem readsDetermineMemory : Obligations.ReadsDetermineMemory :=
  fun _ _ hm hn hread => Memory.eq_of_read_eq hm hn hread

end Sys2Proof.Machine

/-! # Fetch, lookup and the end of a run (spec 40_fetch_decode_dispatch.md R110 to R117; 60_exceptions.md R240) -/

namespace Sys2Proof.Machine

/-- Settles O6: the fetch reports the larger of pc and 256 (`step_above`), and pc has a byte up to 255. -/
theorem fetchPastTheTopFaults : Obligations.FetchPastTheTopFaults := by
  intro s hs habove
  have hstep := (step_above s hs habove).trans (raise_eq _ _ s)
  constructor
  · intro hbyte
    rw [hstep, s.opcodeAtPc_ready hbyte, max_eq_right (by omega), State.opcodeHere]
  · intro hpast
    have hnone : s.opcodeAtPc = none := if_neg hpast.not_gt
    rw [hstep, hnone, max_eq_left hpast]

/-- Settles O14: the first bad index comes before every other answer (`exec_badIndex`); the other faults of `exec` have other
causes, and a completed handler does not fault. -/
theorem badRegisterIndexFaults : Obligations.BadRegisterIndexFaults := by
  refine ⟨fun i s v hready hbad => exec_badIndex hready hbad, fun i s t r hready hw he hr => ?_⟩
  rcases exec_answers i s with ⟨-, -, ha⟩ | ⟨-, ⟨v, hv, -⟩ | ⟨-, d, -, ha⟩ | ⟨-, -, h, ha, -, hstatus⟩⟩
  · rw [ha] at he; cases he; cases hr; simp
  · simp [(firstBadIndex_none i).2 hw] at hv
  · rw [ha] at he; cases he; cases hr; simp
  · rw [ha] at he
    cases he
    rw [finishCycle_status] at hr
    rcases hstatus with hkept | ⟨-, rfl⟩
    · rw [hkept, hready.1] at hr; cases hr
    · cases hr

/-- Settles O2: each word is decoded by the row of its first byte. -/
theorem sampleWordsDecode : Obligations.SampleWordsDecode :=
  ⟨rfl, rfl, rfl, rfl, rfl, rfl, rfl, rfl, rfl, rfl⟩

/-- Settles O37: HLT's handler ends the run, so step 5 does nothing (R115), and the ended state has no step. -/
theorem hltHaltsInPlace : Obligations.HltHaltsInPlace := by
  intro s _
  refine ⟨rfl, s.setStatus .halted, rfl, rfl, rfl, fun _ => rfl, rfl, rfl, fun _ => rfl, ?_⟩
  exact endedStateHasNoStep _ (by simp)

/-- Settles O48: `step` reads the status first. -/
theorem endedStateStopsByName : Obligations.EndedStateStopsByName := by
  intro s
  constructor
  · intro hs
    rw [step, hs]
  · intro r hs
    rw [step, hs]

end Sys2Proof.Machine

/-! # Jumps, and a comparison with the branch after it (spec 42_compare_branch.md R152, R153, R156) -/

namespace Sys2Proof.Machine

theorem exec_jmp {a : Byte} {i : RegIx} (s : State) (ha : Names a i) :
    exec (.jmp a) s = complete (.jmp a) (branchTo true i s) := by
  rw [exec, execJmp, withReg_names a i s _ ha]

theorem exec_jeq {a : Byte} {i : RegIx} (s : State) (ha : Names a i) :
    exec (.jeq a) s = complete (.jeq a) (branchTo (flagE s.fl) i s) := by
  rw [exec, execJeq, withReg_names a i s _ ha]

/-- Settles O28: JMP is the branch that is always taken. -/
theorem jmpGoesToRegister : Obligations.JmpGoesToRegister := by
  intro a s hready
  refine ⟨rfl, fun i ha => ?_, fun ha => exec_badIndex hready (firstBadIndex_first rfl ha)⟩
  obtain ⟨t, hcomplete, htaken, -, hframe⟩ := complete_branchTo (ins := .jmp a) true i hready rfl
  exact ⟨t, (exec_jmp s ha).trans hcomplete, htaken rfl, hframe⟩

/-- Settles O29: the branch is taken exactly when E is set; the index check comes before that decision. -/
theorem jeqBranchesWhenEqual : Obligations.JeqBranchesWhenEqual := by
  intro a s hready
  refine ⟨rfl, fun i ha => ?_, fun ha => exec_badIndex hready (firstBadIndex_first rfl ha)⟩
  obtain ⟨t, hcomplete, hbranch⟩ := complete_branchTo (ins := .jeq a) (flagE s.fl) i hready rfl
  exact ⟨t, (exec_jeq s ha).trans hcomplete, hbranch⟩

/-! ## The three bits of a comparison, read as the order of the two bytes -/

theorem flagE_compareFlags (p q : Byte) : flagE (compareFlags p q) = true ↔ p = q := by
  rw [← BitVec.toNat_inj]
  rcases lt_trichotomy p.toNat q.toNat with h | h | h
  · simp [compareFlags_of_lt h, flagE, h.ne]
  · simp [compareFlags_of_eq h, flagE, h]
  · simp [compareFlags_of_gt h, flagE, h.ne']

theorem flagL_compareFlags (p q : Byte) : flagL (compareFlags p q) = true ↔ p.toNat < q.toNat := by
  rcases lt_trichotomy p.toNat q.toNat with h | h | h
  · simp [compareFlags_of_lt h, flagL, h]
  · simp [compareFlags_of_eq h, flagL, h]
  · simp [compareFlags_of_gt h, flagL, h.le]

theorem flagG_compareFlags (p q : Byte) : flagG (compareFlags p q) = true ↔ q.toNat < p.toNat := by
  rcases lt_trichotomy p.toNat q.toNat with h | h | h
  · simp [compareFlags_of_lt h, flagG, h.le]
  · simp [compareFlags_of_eq h, flagG, h]
  · simp [compareFlags_of_gt h, flagG, h]

/-! ## The table of flag outcomes (R156) -/

/-- Settles O45: CMP keeps the registers and leaves the comparison in fl, which the branch then reads; the fall-through is
past CMP's three bytes and the branch's two. -/
theorem compareDecidesTheBranch : Obligations.CompareDecidesTheBranch := by
  intro a b c i j k s hs hpc ha hb hc
  obtain ⟨p, hcomplete, hp⟩ :=
    complete_advances (ins := .cmp a b) (h := s.setFl (compareFlags (s.reg i) (s.reg j)))
      ⟨hs, hpc.trans (by decide)⟩ rfl
  have hp3 : p.toNat = s.pc.toNat + 3 := hp
  have htready : ((s.setFl (compareFlags (s.reg i) (s.reg j))).setPc p).Ready := ⟨hs, by rw [State.setPc_pc]; omega⟩
  obtain ⟨-, hjeq, -⟩ := jeqBranchesWhenEqual c _ htready
  obtain ⟨u, huexec, hutaken, hufall, -⟩ := hjeq k hc
  obtain ⟨-, hjne, -⟩ := jneBranchesWhenNotEqual c _ htready
  obtain ⟨v, hvexec, hvtaken, hvfall, -⟩ := hjne k hc
  refine ⟨_, u, v, (exec_cmp s ha hb).trans hcomplete, huexec, hvexec, ?_, ?_, flagL_compareFlags _ _,
    flagG_compareFlags _ _⟩
  all_goals by_cases heq : s.reg i = s.reg j
  · rw [if_pos heq]
    exact hutaken ((flagE_compareFlags _ _).2 heq)
  · rw [if_neg heq, hufall (Bool.eq_false_iff.2 (mt (flagE_compareFlags _ _).1 heq))]
    exact congrArg (· + 2) hp3
  · rw [if_pos heq, hvfall ((flagE_compareFlags _ _).2 heq)]
    exact congrArg (· + 2) hp3
  · rw [if_neg heq]
    exact hvtaken (Bool.eq_false_iff.2 (mt (flagE_compareFlags _ _).1 heq))

end Sys2Proof.Machine

/-! # PUSH and POP (spec 43_stack_linkage.md R172, R173)

The round trips of R177 needed PUSH and POP of a register other than SP only (`Pushes`, `Pops`); these are the whole rules,
register 7 and the guard included. -/

namespace Sys2Proof.Machine

/-- An instruction whose one register operand names a register is well formed. -/
theorem wellFormed_of_reg {ins : Instr} {a : Byte} (ho : regOperands ins = [a]) (ha : a.toNat ≤ 7) :
    wellFormed ins = true := by
  simp [wellFormed, ho, isRegIndex_names a ⟨a.toNat, by omega⟩ rfl]

/-- Settles O31: the register is read after SP is lowered, so that PUSH R7 stores the lowered SP. -/
theorem pushStoresBelowStackPointer : Obligations.PushStoresBelowStackPointer := by
  intro a s hready hmem
  refine ⟨rfl, fun i ha hsp => ?_, fun ha hsp => exec_stackGuard hready (wellFormed_of_reg rfl ha) (if_pos hsp),
    fun ha => exec_badIndex hready (firstBadIndex_first rfl ha)⟩
  obtain ⟨p, hcomplete, hp⟩ := complete_advances (ins := .push a)
    (h := (s.setReg 7 (s.reg 7 - 1)).memWrite (s.reg 7 - 1) ((s.setReg 7 (s.reg 7 - 1)).reg i)) hready rfl
  refine ⟨_, (exec_push s ha hsp).trans hcomplete, ?_, ?_, ?_, ?_, hp, rfl, rfl, hready.1⟩
  · simpa using sub_one_toNat hsp
  · intro k hk
    simp [hk]
  · simp [hmem, State.setReg_reg]
  · intro c hc
    exact sameMemoryBut_memWrite _ _ _ c (by simpa using hc)

/-- The guard of POP looks at SP, unless POP has just loaded SP. -/
theorem stackGuard_pop (a : Byte) (s : State) :
    stackGuard (.pop a) s =
      if (if a = 7#8 then s.memRead (s.reg 7) else s.reg 7) = 0xFF#8 then some 255 else none := rfl

/-- R173 for SP itself: the loaded byte is what the increment raises. -/
theorem exec_pop_sp {a : Byte} (s : State) (ha : Names a 7) (hload : s.memRead (s.reg 7) ≠ 0xFF#8) :
    exec (.pop a) s = complete (.pop a)
      ((s.setReg 7 (s.memRead (s.reg 7))).setReg 7 (s.memRead (s.reg 7) + 1)) := by
  have hexec := exec_pop s ha (by simpa using hload)
  rwa [State.setReg_reg_same] at hexec

/-- Settles O32: of another register by `exec_pop_pops`, of SP by `exec_pop_sp`; the guard fires where either stops. -/
theorem popLoadsAndRaisesStackPointer : Obligations.PopLoadsAndRaisesStackPointer := by
  intro a s hready
  refine ⟨rfl, fun i ha hi hsp => ?_, fun ha hload => ?_, fun ha hsp => ?_, fun ha hload => ?_,
    fun ha => exec_badIndex hready (firstBadIndex_first rfl ha)⟩
  · obtain ⟨t, hexec, ht⟩ := exec_pop_pops hready ha hi hsp
    have hraised : (t.reg 7).toNat = (s.reg 7).toNat + 1 := by rw [ht.sp, add_one_toNat hsp]
    exact ⟨t, hexec, ht.reg, hraised, ht.regs, ht.pc, ht.fl, ht.out, ht.running, ht.memory⟩
  · obtain ⟨p, hcomplete, hp⟩ := complete_advances (ins := .pop a)
      (h := (s.setReg 7 (s.memRead (s.reg 7))).setReg 7 (s.memRead (s.reg 7) + 1)) hready rfl
    refine ⟨_, (exec_pop_sp s ha hload).trans hcomplete, ?_, ?_, hp, rfl, rfl, hready.1, fun _ => rfl⟩
    · simpa using add_one_toNat hload
    · intro k hk
      simp [hk]
  · have hne : a ≠ 7#8 := by rintro rfl; exact absurd ha (by decide)
    refine exec_stackGuard hready (wellFormed_of_reg rfl ha.le) ?_
    rw [stackGuard_pop, if_neg hne, if_pos hsp]
  · have heq : a = 7#8 := BitVec.eq_of_toNat_eq ha
    refine exec_stackGuard hready (wellFormed_of_reg rfl ha.le) ?_
    rw [stackGuard_pop, if_pos heq, if_pos hload]

end Sys2Proof.Machine
